-- ==== Sys2Proof/Config.lean ====
section
/-! DEFINITION. What the spec fixes for this hardware (00_scope.md R6): the width of a word, the least and the greatest
word, and the bounds of the parameter MEM_LIMIT. The spec leaves no value free: every result it does not take from the
source document is decided in 92_eei_decisions.md, so this file holds no opaque constant. MEM_LIMIT and the program are
arguments of an instance (R6) and stand in `State.params`. -/

namespace Sys2Proof.Config

/-- `WORD_BITS`, the width of a memory word, of `bp` and of every value (R6, 92 D1). -/
def wordBits : Nat := 64

/-- `WMIN`, the least word (R6). -/
def wMin : Int := -9223372036854775808

/-- `WMAX`, the greatest word (R6). -/
def wMax : Int := 9223372036854775807

/-- The greatest `MEM_LIMIT` the spec admits, `2^(WORD_BITS-1)` (R6, 92 D3). -/
def maxMemLimit : Nat := 9223372036854775808

/-- The `MEM_LIMIT` of `State.reset`. The spec leaves the number OPEN (92 D3).
DESIGN CHOICE, unsafe, log entry 2: the top of its range, the document's preferred growth on demand. -/
def resetMemLimit : Nat := maxMemLimit

/-- The longest instruction has three parameters and so four words (30_encoding.md R45). -/
def maxInstrWords : Nat := 4

end Sys2Proof.Config
end

