-- ==== Sys2Proof/Word.lean ====
section
/-! DEFINITION. The word: 64 bits read as a signed two's complement integer (00_scope.md R6, R8). Its value is the integer
`w.toInt`, which always lies in `[WMIN, WMAX]`. All arithmetic of the machine is on these integers, never on the bits. -/

namespace Sys2Proof

/-- One Memory word, and the type of `bp`, of the pending input and of every value (R6, 92 D1). -/
abbrev Word := BitVec 64

end Sys2Proof
end

