-- ==== Sys2Proof/Syntax.lean ====
section
/-! DEFINITION. Instructions as syntax: one constructor per row of spec/opcode_table.json (30_encoding.md R48). An
instruction carries each used parameter with its raw word and its addressing mode; its intent is fixed by the opcode and
the slot (R49) and stands in Decode.lean. -/

namespace Sys2Proof

/-- Addressing mode of a parameter (30_encoding.md R47). -/
inductive Mode where
  | position
  | immediate
  | relative
deriving DecidableEq, Repr

/-- Whether a parameter is read from or written to (00_scope.md R13, 30_encoding.md R49). -/
inductive Intent where
  | read
  | write
deriving DecidableEq, Repr

/-- A parameter before resolution: its mode and the raw word of its cell (30_encoding.md R51). -/
structure Operand where
  mode : Mode
  raw : Word
deriving DecidableEq, Repr

/-- The ten recognised opcodes (30_encoding.md R48). -/
inductive Opcode where
  | add | mul | inp | out | jnz | jz | lt | eq | arb | hlt
deriving DecidableEq, Repr

/-- The instruction set (30_encoding.md R48): one constructor per row of the opcode table, with the parameters 1, 2, 3
the row has. `inp` is the row `in` (a Lean keyword). -/
inductive Instr where
  | add (a b c : Operand)
  | mul (a b c : Operand)
  | inp (c : Operand)
  | out (a : Operand)
  | jnz (a b : Operand)
  | jz (a b : Operand)
  | lt (a b c : Operand)
  | eq (a b c : Operand)
  | arb (a : Operand)
  | hlt
deriving DecidableEq, Repr

/-- The opcode of an instruction. -/
def Instr.opcode : Instr → Opcode
  | .add _ _ _ => .add
  | .mul _ _ _ => .mul
  | .inp _ => .inp
  | .out _ => .out
  | .jnz _ _ => .jnz
  | .jz _ _ => .jz
  | .lt _ _ _ => .lt
  | .eq _ _ _ => .eq
  | .arb _ => .arb
  | .hlt => .hlt

/-- The used parameters of an instruction, slot 1 first. -/
def Instr.operands : Instr → List Operand
  | .add a b c => [a, b, c]
  | .mul a b c => [a, b, c]
  | .inp c => [c]
  | .out a => [a]
  | .jnz a b => [a, b]
  | .jz a b => [a, b]
  | .lt a b c => [a, b, c]
  | .eq a b c => [a, b, c]
  | .arb a => [a]
  | .hlt => []

/-- The Write-intent parameter of an instruction, if it has one (R48, R49). -/
def Instr.destination : Instr → Option Operand
  | .add _ _ c => some c
  | .mul _ _ c => some c
  | .inp c => some c
  | .out _ => none
  | .jnz _ _ => none
  | .jz _ _ => none
  | .lt _ _ c => some c
  | .eq _ _ c => some c
  | .arb _ => none
  | .hlt => none

end Sys2Proof
end

