-- ==== Sys2Proof/WellFormed.lean ====
section
/-! DEFINITION. Well-formed instructions (30_encoding.md R54 (b)). Every instruction term has an encoding; the one illegal
combination that an encoding can spell is a Write-intent parameter in Immediate mode, which the spec says "must never be
reached for well-formed programs". Such a word still decodes (R65); the Resolver rejects it (R74). -/

namespace Sys2Proof

/-- The check: the destination, where there is one, is not Immediate (R54 (b)). -/
def Instr.wellFormed (i : Instr) : Bool :=
  match i.destination with
  | none => true
  | some d => d.mode != .immediate

end Sys2Proof
end

