-- ==== Sys2Proof/Decode.lean ====
section
/-! DEFINITION. The Decoder (40_decode_resolve.md R61 to R67) over the cells from `pc` on, total on any list of words and
rejecting by name, and the canonical encoder (30_encoding.md R57). The instruction word is a decimal layout: opcode in
digits 1..0, the modes of parameters 1, 2, 3 in digits 2, 3, 4 (R46). -/

namespace Sys2Proof

/-- The `fault` signal of the Decoder (R61): safe, the step reports it and writes only the run state (R100). -/
inductive DecodeFault where
  | invalidProgram
  | invalidOperator
  | invalidMode
  | missingOperand
deriving DecidableEq, Repr

/-- `digit_k(n)`, the k-th decimal digit counted from 0 at the units (00_scope.md R9). -/
def digit (k n : Nat) : Nat := n / 10 ^ k % 10

/-- The opcode number of digits 1..0 (30_encoding.md R48). -/
def Opcode.number : Opcode → Nat
  | .add => 1
  | .mul => 2
  | .inp => 3
  | .out => 4
  | .jnz => 5
  | .jz => 6
  | .lt => 7
  | .eq => 8
  | .arb => 9
  | .hlt => 99

/-- Opcode recognition (R64 (b)): the recognised values of `raw mod 100`, and none for every other one. -/
def opcodeOf : Nat → Option Opcode
  | 1 => some .add
  | 2 => some .mul
  | 3 => some .inp
  | 4 => some .out
  | 5 => some .jnz
  | 6 => some .jz
  | 7 => some .lt
  | 8 => some .eq
  | 9 => some .arb
  | 99 => some .hlt
  | _ => none

/-- The intents of the parameters, slot 1 first (30_encoding.md R48, R49). -/
def Opcode.intents : Opcode → List Intent
  | .add => [.read, .read, .write]
  | .mul => [.read, .read, .write]
  | .inp => [.write]
  | .out => [.read]
  | .jnz => [.read, .read]
  | .jz => [.read, .read]
  | .lt => [.read, .read, .write]
  | .eq => [.read, .read, .write]
  | .arb => [.read]
  | .hlt => []

/-- `nparams(op)` (30_encoding.md R48, R50). -/
def Opcode.nparams : Opcode → Nat
  | .add => 3
  | .mul => 3
  | .inp => 1
  | .out => 1
  | .jnz => 2
  | .jz => 2
  | .lt => 3
  | .eq => 3
  | .arb => 1
  | .hlt => 0

/-- `len(op) = 1 + nparams(op)` (30_encoding.md R50). -/
def Opcode.len (op : Opcode) : Nat := 1 + op.nparams

/-- The mode a used mode digit selects; digits 3 to 9 select none (30_encoding.md R47, R65). -/
def decodeMode : Nat → Except DecodeFault Mode
  | 0 => .ok .position
  | 1 => .ok .immediate
  | 2 => .ok .relative
  | _ => .error .invalidMode

/-- The digit of a mode (30_encoding.md R47). -/
def Mode.digit : Mode → Nat
  | .position => 0
  | .immediate => 1
  | .relative => 2

/-- The mode of slot `i` (1, 2 or 3): its digit `i + 1` where the opcode has the slot; an unused slot's digit is not
looked at (30_encoding.md R52, 40_decode_resolve.md R65). -/
def slotMode (op : Opcode) (raw i : Nat) : Except DecodeFault Mode :=
  if i ≤ op.nparams then decodeMode (digit (i + 1) raw) else .ok .position

/-- The raw word of slot `i` (1, 2 or 3), cell `i` after the instruction word where the opcode has the slot (R66). -/
def slotCell (op : Opcode) (params : List Word) (i : Nat) : Except DecodeFault Word :=
  if i ≤ op.nparams then
    match params[i - 1]? with
    | some w => .ok w
    | none => .error .missingOperand
  else .ok 0

/-- The instruction of an opcode with its parameters; slots the opcode does not have are dropped. -/
def buildInstr (op : Opcode) (p1 p2 p3 : Operand) : Instr :=
  match op with
  | .add => .add p1 p2 p3
  | .mul => .mul p1 p2 p3
  | .inp => .inp p1
  | .out => .out p1
  | .jnz => .jnz p1 p2
  | .jz => .jz p1 p2
  | .lt => .lt p1 p2 p3
  | .eq => .eq p1 p2 p3
  | .arb => .arb p1
  | .hlt => .hlt

/-- Once the opcode is recognised: the mode digits in slot order, then the parameter cells in slot order (R62, R83). -/
def decodeParams (op : Opcode) (raw : Nat) (params : List Word) : Except DecodeFault Instr := do
  let m1 ← slotMode op raw 1
  let m2 ← slotMode op raw 2
  let m3 ← slotMode op raw 3
  let w1 ← slotCell op params 1
  let w2 ← slotCell op params 2
  let w3 ← slotCell op params 3
  return buildInstr op ⟨m1, w1⟩ ⟨m2, w2⟩ ⟨m3, w3⟩

/-- The Decoder's algorithm (R62). The list holds the valid cells from `pc` on: an empty list is an invalid `pc` (R63),
a list that ends before a needed parameter is a parameter cell that is not valid (R66). -/
def decode : List Word → Except DecodeFault Instr
  | [] => .error .invalidProgram
  | w :: params =>
    if w.toInt < 0 then .error .invalidOperator
    else
      match opcodeOf (w.toNat % 100) with
      | none => .error .invalidOperator
      | some op => decodeParams op w.toNat params

/-- The canonical instruction word `op + 100*M1 + 1000*M2 + 10000*M3`, 0 for a slot the opcode lacks (R57). -/
def headWord (i : Instr) : Nat :=
  match i.operands with
  | [] => i.opcode.number
  | [a] => i.opcode.number + 100 * a.mode.digit
  | [a, b] => i.opcode.number + 100 * a.mode.digit + 1000 * b.mode.digit
  | a :: b :: c :: _ => i.opcode.number + 100 * a.mode.digit + 1000 * b.mode.digit + 10000 * c.mode.digit

/-- The canonical encoding: the instruction word and then each parameter's raw word (R45, R57). -/
def encode (i : Instr) : List Word :=
  BitVec.ofNat 64 (headWord i) :: i.operands.map Operand.raw

/-- The words of an instruction numbered as spec/opcode_table.json is read (log entry 6): word `k` is bits
`64k+63 .. 64k` of `w`, bits at `nbits` and above being 0; as many words as the longest instruction has (R45). -/
def tableCells (nbits w : Nat) : List Word :=
  let v := w % 2 ^ nbits
  [BitVec.ofNat 64 v, BitVec.ofNat 64 (v / 2 ^ 64), BitVec.ofNat 64 (v / 2 ^ 128), BitVec.ofNat 64 (v / 2 ^ 192)]

/-- The instruction the Decoder reads from those words, none where it refuses. -/
def decodeTableWord (nbits w : Nat) : Option Instr :=
  match decode (tableCells nbits w) with
  | .ok i => some i
  | .error _ => none

end Sys2Proof
end

