-- ==== Sys2Proof/Machine/State.lean ====
section
/-! DEFINITION. The state of one VM instance as plain data (10_state.md R27), with its parameters (00_scope.md R6) and the
result of the last step; the fault kinds (60_exceptions.md R95); the state after reset (70_reset_and_hazards.md R119). -/

namespace Sys2Proof.Machine

/-- The fault kinds (R95), each returned to the host as a typed failure. -/
inductive Fault where
  /-- Code 1. Raised by the Decoder on a negative word or an unrecognised opcode (R64). Safe: the spec's own fault. -/
  | invalidOperator
  /-- Code 2. Raised by the Decoder for a parameter cell that is not valid (R66). Safe: the spec's own fault. -/
  | missingOperand
  /-- Code 3. Raised by the fetch (R63), the Resolver (R70, R72, R73, R75) and a taken jump to an invalid target
  (R89, R90). Safe: the spec's own fault. -/
  | invalidProgram
  /-- Code 4. A step issued after Halted (R79). It never becomes a run state (R100). Safe: the spec's own fault. -/
  | alreadyHalted
  /-- Code 5. Raised by the Resolver for an Immediate destination (R74). Safe: the spec's own fault; the original may
  name it otherwise (90_conflicts.md C1). -/
  | writeToImmediate
  /-- Code 6. Raised by the Decoder for a used mode digit 3 to 9 (R65). Safe: the spec's own fault. -/
  | invalidMode
  /-- Code 7. Raised by Add, Mul and AdjustBase for a result outside the word range (R85, R86, R93). Safe: the spec's
  own fault. -/
  | arithmeticOverflow
deriving DecidableEq, Repr

/-- The reasons for having no meaning. -/
inductive Refusal where
  /-- An instruction that has no meaning yet. No arm of exec answers it: all ten instructions have their meaning. Safe. -/
  | notModelled (mnemonic : String)
deriving DecidableEq, Repr

/-- The run state (10_state.md R21). -/
inductive RunState where
  | active
  | halted
  | faulted (k : Fault)
deriving DecidableEq, Repr

/-- What a step that does not fail returns to the host (10_state.md R22). -/
inductive Status where
  | running
  | awaitingInput
  | output (v : Word)
  | halted
deriving DecidableEq, Repr

/-- The result of the last step: none yet, a status, or the fault kind the step raised. The MODEL's own (log entry 1):
in the spec this is the value `step()` returns, not stored state. -/
inductive Answer where
  | noStep
  | status (v : Status)
  | failed (k : Fault)
deriving DecidableEq, Repr

/-- The parameters of an instance (00_scope.md R6): the number of addressable cells and the program it was constructed
from (10_state.md R25). No instruction and no host call changes them. -/
structure Params where
  memLimit : Nat
  program : List Word
deriving DecidableEq, Repr

/-- Memory: pairs of a cell's address and its word, in the canonical form `Memory.wf` (addresses strictly rising, no
listed word 0). An unlisted cell reads 0 (10_state.md R24). A cell is one word; no access is narrower (20_memory.md
R31 to R33). -/
abbrev Memory := List (Nat × Word)

/-- The state of one instance: the elements of the table in 10_state.md R27, the parameters, and the last result. -/
structure State where
  /-- MEM_LIMIT and the Program (00_scope.md R6, 10_state.md R25). -/
  params : Params
  /-- The tape (10_state.md R24). -/
  mem : Memory
  /-- ProgramCounter, an address in `[0, MEM_LIMIT]` (10_state.md R16). -/
  pc : Nat
  /-- BasePointer, a signed word (10_state.md R19). -/
  bp : Word
  /-- The pending-input slot (10_state.md R20). -/
  slot : Option Word
  /-- The run state (10_state.md R21). -/
  run : RunState
  /-- What the last step returned (10_state.md R22). The MODEL's own field, log entry 1; nothing reads it. -/
  ret : Answer
deriving DecidableEq, Repr

/-- The machine right after reset (R119) with nothing loaded: the empty program (log entry 3) and the greatest MEM_LIMIT
(log entry 2). -/
def State.reset : State :=
  { params := { memLimit := Config.resetMemLimit, program := [] }
    mem := []
    pc := 0
    bp := 0
    slot := none
    run := .active
    ret := .noStep }

end Sys2Proof.Machine
end

