-- ==== Sys2Proof/Machine/Flags.lean ====
section
/-! DEFINITION. The machine has no flags (10_state.md R18). What stands here is what other machines compute as flags: the
range check of an exact result, which raises `ArithmeticOverflow`, and the word a comparison writes to Memory. -/

namespace Sys2Proof.Machine

/-- `in_range(v)` (00_scope.md R10). -/
abbrev InRange (v : Int) : Prop := Config.wMin ≤ v ∧ v ≤ Config.wMax

/-- An exact result as a word, or `ArithmeticOverflow` where it is out of range: never a wrapped value (00_scope.md R7,
41_arith.md R85, R86, 45_base_halt.md R93). -/
def narrow (v : Int) : Except Fault Word :=
  if InRange v then .ok (BitVec.ofInt 64 v) else .error .arithmeticOverflow

/-- The word LessThan and Equal write: 1 or 0 (44_compare.md R91, R92). -/
def truthWord (b : Bool) : Word := if b then 1 else 0

end Sys2Proof.Machine
end

