-- ==== Sys2Proof/Machine/Ops.lean ====
section
/-! DEFINITION. The named operations over Memory and the other state elements: reading and writing a cell, loading a
program, the cells the fetch reads, advancing and setting `pc`, answering a status, and raising a fault (60_exceptions.md
R99, R100). There is no return from a fault (R101), so none stands beside it. -/

namespace Sys2Proof.Machine

/-- What an unlisted cell reads as: the zero-filled extension (10_state.md R24, 20_memory.md R35). -/
def Memory.unlisted : Word := 0

/-- `mem[a]` (00_scope.md R10). Reading changes nothing (20_memory.md R34). -/
def Memory.read : Memory → Nat → Word
  | [], _ => Memory.unlisted
  | (k, x) :: m, a => if k = a then x else Memory.read m a

/-- The memory without an entry for `a`. -/
def Memory.erase : Memory → Nat → Memory
  | [], _ => []
  | (k, x) :: m, a => if k = a then Memory.erase m a else (k, x) :: Memory.erase m a

/-- The memory with the entry `(a, v)` before the first entry of a greater address. -/
def Memory.insert : Memory → Nat → Word → Memory
  | [], a, v => [(a, v)]
  | (k, x) :: m, a, v => if a < k then (a, v) :: (k, x) :: m else (k, x) :: Memory.insert m a v

/-- `mem[a] <- v` (00_scope.md R10): changes only cell `a` (20_memory.md R34), and keeps the canonical form. -/
def Memory.write (m : Memory) (a : Nat) (v : Word) : Memory :=
  if v = Memory.unlisted then m.erase a else (m.erase a).insert a v

/-- The canonical form from address `lo` on: addresses strictly rising and no listed word equal to an unlisted cell's. -/
def Memory.wfFrom : Nat → Memory → Bool
  | _, [] => true
  | lo, (k, x) :: m => decide (lo ≤ k) && x != Memory.unlisted && Memory.wfFrom (k + 1) m

/-- The canonical form of a memory: equal memories are equal data. -/
def Memory.wf (m : Memory) : Bool := Memory.wfFrom 0 m

/-- The memory that holds `ws` from address `a` on and nothing else (10_state.md R24). -/
def Memory.load (a : Nat) : List Word → Memory
  | [] => []
  | w :: ws => if w = Memory.unlisted then Memory.load (a + 1) ws else (a, w) :: Memory.load (a + 1) ws

/-- The first `n` cells from `a` on, as far as they are valid addresses (40_decode_resolve.md R61: the Decoder reads only
addresses it has checked). -/
def Memory.cellsFrom (m : Memory) (limit : Nat) : Nat → Nat → List Word
  | _, 0 => []
  | a, n + 1 => if a < limit then m.read a :: Memory.cellsFrom m limit (a + 1) n else []

/-- The memory with `ws` written from `a` on, as far as the addresses are valid. -/
def Memory.writeCells (m : Memory) (limit : Nat) : Nat → List Word → Memory
  | _, [] => m
  | a, w :: ws => if a < limit then Memory.writeCells (m.write a w) limit (a + 1) ws else m

/-- The cells the Decoder may read in this step, `mem[pc] .. mem[pc+3]` (40_decode_resolve.md R61). -/
def State.fetchCells (s : State) : List Word :=
  s.mem.cellsFrom s.params.memLimit s.pc Config.maxInstrWords

/-- `mem[d] <- v`. -/
def State.store (s : State) (d : Nat) (v : Word) : State := { s with mem := s.mem.write d v }

/-- `pc <- pc + n` (10_state.md R17 (a)). -/
def State.advance (s : State) (n : Nat) : State := { s with pc := s.pc + n }

/-- `pc <- t` (10_state.md R17 (b)). -/
def State.setPc (s : State) (t : Nat) : State := { s with pc := t }

/-- `return st` (00_scope.md R10): the step ends with status `st`. -/
def State.answer (s : State) (st : Status) : State := { s with ret := .status st }

/-- Fault entry and fault commit (60_exceptions.md R99, R100): `run <- Faulted(k)`, nothing saved, no handler, every other
element as before the step; the kind is returned to the host. -/
def State.raise (s : State) (k : Fault) : State := { s with run := .faulted k, ret := .failed k }

/-- The end of an instruction: its committed state, or the fault it raised. Every write of a faulting instruction is
discarded (60_exceptions.md R99). -/
def State.conclude (s : State) : Except Fault State → Host.Outcome State Fault Refusal
  | .ok t => .next t
  | .error k => .next (s.raise k)

/-- The fault kind of a Decoder fault (60_exceptions.md R95). -/
def faultOfDecode : DecodeFault → Fault
  | .invalidProgram => .invalidProgram
  | .invalidOperator => .invalidOperator
  | .invalidMode => .invalidMode
  | .missingOperand => .missingOperand

/-- The numeric code of a fault kind (60_exceptions.md R95, 92 D24). -/
def Fault.code : Fault → Nat
  | .invalidOperator => 1
  | .missingOperand => 2
  | .invalidProgram => 3
  | .alreadyHalted => 4
  | .writeToImmediate => 5
  | .invalidMode => 6
  | .arithmeticOverflow => 7

end Sys2Proof.Machine
end

