-- ==== Sys2Proof/Machine/Operands.lean ====
section
/-! DEFINITION. The Operand Resolver (40_decode_resolve.md R68 to R77): every mode with every intent, with exact address
arithmetic, and the shapes in which the instructions use it. -/

namespace Sys2Proof.Machine

/-- `valid(a)`: `0 <= a < MEM_LIMIT` (00_scope.md R10). -/
abbrev State.Valid (s : State) (a : Int) : Prop := 0 ≤ a ∧ a < s.params.memLimit

/-- The cell an integer addresses, or `InvalidProgram` (20_memory.md R43). -/
def State.cellAddress (s : State) (a : Int) : Except Fault Nat :=
  if s.Valid a then .ok a.toNat else .error .invalidProgram

/-- The integer a Position or Relative parameter addresses: `raw`, or the exact sum `bp + raw` (R69, R76). -/
def State.target (s : State) (o : Operand) : Int :=
  match o.mode with
  | .relative => s.bp.toInt + o.raw.toInt
  | _ => o.raw.toInt

/-- A Read parameter's effective value (R70, R71, R73). -/
def State.readOperand (s : State) (o : Operand) : Except Fault Word :=
  match o.mode with
  | .immediate => .ok o.raw
  | _ => do
    let a ← s.cellAddress (s.target o)
    return s.mem.read a

/-- A Write parameter's effective address (R72, R74, R75). -/
def State.writeAddress (s : State) (o : Operand) : Except Fault Nat :=
  match o.mode with
  | .immediate => .error .writeToImmediate
  | _ => s.cellAddress (s.target o)

/-- The Resolver's result (R68). -/
inductive Resolved where
  | value (v : Word)
  | addr (a : Nat)
deriving DecidableEq, Repr

/-- The Resolver (R68): the effective value for a Read, the effective address for a Write. -/
def State.resolve (s : State) (o : Operand) (it : Intent) : Except Fault Resolved :=
  match it with
  | .read => do
    let v ← s.readOperand o
    return .value v
  | .write => do
    let a ← s.writeAddress o
    return .addr a

/-- Add, Mul, LessThan, Equal: parameters 1 and 2 read, parameter 3 a destination, resolved in slot order (R77); the
result computed from the values; then one write, `pc` past the four words, and Running. -/
def State.combineInto (s : State) (a b c : Operand) (f : Word → Word → Except Fault Word) :
    Host.Outcome State Fault Refusal :=
  s.conclude do
    let x ← s.readOperand a
    let y ← s.readOperand b
    let d ← s.writeAddress c
    let r ← f x y
    return ((s.store d r).advance 4).answer .running

/-- The two jumps: parameters 1 and 2 read in slot order; where the condition holds the target is checked and taken,
else `pc` moves past the three words and the target is not checked (43_branch.md R89, R90). -/
def State.jumpWhen (s : State) (a b : Operand) (cond : Word → Bool) : Host.Outcome State Fault Refusal :=
  s.conclude do
    let x ← s.readOperand a
    let y ← s.readOperand b
    if cond x then
      let t ← s.cellAddress y.toInt
      return (s.setPc t).answer .running
    else
      return (s.advance 3).answer .running

end Sys2Proof.Machine
end

