-- ==== Sys2Proof/Machine/Arith.lean ====
section
/-! DEFINITION. Arithmetic instructions (41_arith.md): Add and Mul on exact integers, range-checked, never wrapped. -/

namespace Sys2Proof.Machine

/-- Add (R85): `mem[C] <- A + B`. -/
def execAdd (a b c : Operand) (s : State) : Host.Outcome State Fault Refusal :=
  s.combineInto a b c fun x y => narrow (x.toInt + y.toInt)

/-- Mul (R86): `mem[C] <- A * B`. -/
def execMul (a b c : Operand) (s : State) : Host.Outcome State Fault Refusal :=
  s.combineInto a b c fun x y => narrow (x.toInt * y.toInt)

end Sys2Proof.Machine
end

