-- ==== Sys2Proof/Machine/BaseHalt.lean ====
section
/-! DEFINITION. Base adjustment and halt (45_base_halt.md). -/

namespace Sys2Proof.Machine

/-- AdjustBase (R93): `bp <- bp + A`, range-checked; the operand is read with the old `bp`. -/
def execArb (a : Operand) (s : State) : Host.Outcome State Fault Refusal :=
  s.conclude do
    let v ← s.readOperand a
    let r ← narrow (s.bp.toInt + v.toInt)
    return (({ s with bp := r } : State).advance 2).answer .running

/-- Halt (R94): `run <- Halted`; `pc` stays at the Halt word (92 D12). -/
def execHlt (s : State) : Host.Outcome State Fault Refusal :=
  .next (({ s with run := .halted } : State).answer .halted)

end Sys2Proof.Machine
end

