-- ==== Sys2Proof/Machine/Branch.lean ====
section
/-! DEFINITION. Conditional jumps (43_branch.md). The target is a resolved value (92 D23). -/

namespace Sys2Proof.Machine

/-- JumpIfTrue (R89): taken when `A != 0`. -/
def execJnz (a b : Operand) (s : State) : Host.Outcome State Fault Refusal :=
  s.jumpWhen a b fun x => decide (x.toInt ≠ 0)

/-- JumpIfFalse (R90): taken when `A = 0`. -/
def execJz (a b : Operand) (s : State) : Host.Outcome State Fault Refusal :=
  s.jumpWhen a b fun x => decide (x.toInt = 0)

end Sys2Proof.Machine
end

