-- ==== Sys2Proof/Machine/Compare.lean ====
section
/-! DEFINITION. Comparison instructions (44_compare.md): signed comparison, the result 1 or 0 goes to Memory. -/

namespace Sys2Proof.Machine

/-- LessThan (R91): `mem[C] <- (1 if A < B else 0)`. -/
def execLt (a b c : Operand) (s : State) : Host.Outcome State Fault Refusal :=
  s.combineInto a b c fun x y => .ok (truthWord (decide (x.toInt < y.toInt)))

/-- Equal (R92): `mem[C] <- (1 if A = B else 0)`. -/
def execEq (a b c : Operand) (s : State) : Host.Outcome State Fault Refusal :=
  s.combineInto a b c fun x y => .ok (truthWord (decide (x.toInt = y.toInt)))

end Sys2Proof.Machine
end

