-- ==== Sys2Proof/Machine/InputOutput.lean ====
section
/-! DEFINITION. Input and output instructions (42_io.md), the two suspend points. -/

namespace Sys2Proof.Machine

/-- Input (R87). The destination is resolved before the slot is tested (R83, 92 D11). With no pending value the step
returns AwaitingInput and writes nothing; else the value goes to the destination and the slot is emptied. -/
def execInp (c : Operand) (s : State) : Host.Outcome State Fault Refusal :=
  s.conclude do
    let d ← s.writeAddress c
    match s.slot with
    | none => return s.answer .awaitingInput
    | some v => return (({ s.store d v with slot := none } : State).advance 2).answer .running

/-- Output (R88): the value is returned in the status, and `pc` advances in this step (90_conflicts.md C3, C4). -/
def execOut (a : Operand) (s : State) : Host.Outcome State Fault Refusal :=
  s.conclude do
    let v ← s.readOperand a
    return (s.advance 2).answer (.output v)

end Sys2Proof.Machine
end

