-- ==== Sys2Proof/Machine/Dispatch.lean ====
section
/-! DEFINITION. The effect of one decoded instruction (40_decode_resolve.md R78, `Execute`): one arm per constructor. -/

namespace Sys2Proof.Machine

/-- The instruction's effect on an instance, operands resolved against the state at the start of the step. -/
def exec (i : Instr) (s : State) : Host.Outcome State Fault Refusal :=
  match i with
  | .add a b c => Sys2Proof.Machine.execAdd a b c s
  | .mul a b c => Sys2Proof.Machine.execMul a b c s
  | .inp c => Sys2Proof.Machine.execInp c s
  | .out a => Sys2Proof.Machine.execOut a s
  | .jnz a b => Sys2Proof.Machine.execJnz a b s
  | .jz a b => Sys2Proof.Machine.execJz a b s
  | .lt a b c => Sys2Proof.Machine.execLt a b c s
  | .eq a b c => Sys2Proof.Machine.execEq a b c s
  | .arb a => Sys2Proof.Machine.execArb a s
  | .hlt => Sys2Proof.Machine.execHlt s

end Sys2Proof.Machine
end

