-- ==== Sys2Proof/Machine/Step.lean ====
section
/-! DEFINITION. `step()` (40_decode_resolve.md R78): the run state first (R79, R80), then decode, resolve and execute one
instruction. -/

namespace Sys2Proof.Machine

/-- One step (R78). On an instance that has halted or faulted the call fails and changes no state (R79, R80): the
outcome is a fault, which carries no state. On an active instance the step always has a next state: the instruction's
effect, or the fault commit `run <- Faulted(K)` of R100 (log entry 4). -/
def step (s : State) : Host.Outcome State Fault Refusal :=
  match s.run with
  | .halted => .fault .alreadyHalted
  | .faulted k => .fault k
  | .active =>
    match decode s.fetchCells with
    | .error e => .next (s.raise (faultOfDecode e))
    | .ok i => exec i s

/-- The state with the words of the table's number `w` at `pc`, as a host's `set` would patch them (R114), as far as
the cells are valid. -/
def State.withFetchWord (s : State) (nbits w : Nat) : State :=
  { s with mem := s.mem.writeCells s.params.memLimit s.pc (tableCells nbits w) }

end Sys2Proof.Machine
end

