-- ==== Sys2Proof/Machine/HostCalls.lean ====
section
/-! DEFINITION. The host interface (60_exceptions.md R110 to R117, 70_reset_and_hazards.md R118 to R121): construction,
`step()` as a call with its result, `insert_input`, `get`, `set`, `reset` and `run`. Host calls are made between steps
(R110). -/

namespace Sys2Proof.Machine

/-- The errors of host calls that are not fault kinds: the call fails and changes nothing (R111). `InputExhausted` is an
end reason of `run` and stands in `RunEnd`. -/
inductive HostError where
  | inputOverrun
  | addressOutOfRange
  | resetRefused
  | programWordOutOfRange
deriving DecidableEq, Repr

/-- The construction state (R119): Memory as the program and zeros, `pc` and `bp` 0, no pending input, Active. -/
def State.construct (p : Params) : State :=
  { params := p
    mem := Memory.load 0 p.program
    pc := 0
    bp := 0
    slot := none
    run := .active
    ret := .noStep }

/-- `new(program)` with the parameter MEM_LIMIT (R118): fails where a program word is out of range (92 D21). -/
def newInstance (memLimit : Nat) (program : List Int) : Except HostError State :=
  if ∀ v ∈ program, InRange v then .ok (State.construct ⟨memLimit, program.map (BitVec.ofInt 64)⟩)
  else .error .programWordOutOfRange

/-- `step()` as the host sees it (R112): the status or fault kind, and the state after the call. -/
def State.stepCall (s : State) : Answer × State :=
  match step s with
  | .next t => (t.ret, t)
  | .fault k => (.failed k, s)
  | .refused _ => (.noStep, s)

/-- `insert_input(v)` (R113): fills an empty slot, in every run state.
DEDUCED, log entry 13: on a halted instance R113 is followed, whose slot the call changes, and R129's "Only the host's
`set` and `reset` change a halted instance" is read as said of Memory. -/
def State.insertInput (s : State) (v : Word) : Except HostError State :=
  match s.slot with
  | none => .ok { s with slot := some v }
  | some _ => .error .inputOverrun

/-- `get(a)` (R114). -/
def State.hostGet (s : State) (a : Int) : Except HostError Word :=
  if s.Valid a then .ok (s.mem.read a.toNat) else .error .addressOutOfRange

/-- `set(a, v)` (R114). -/
def State.hostSet (s : State) (a : Int) (v : Word) : Except HostError State :=
  if s.Valid a then .ok (s.store a.toNat v) else .error .addressOutOfRange

/-- `reset()` (R115): the construction state again, refused on a faulted instance. -/
def State.hostReset (s : State) : Except HostError State :=
  match s.run with
  | .faulted _ => .error .resetRefused
  | .active => .ok (State.construct s.params)
  | .halted => .ok (State.construct s.params)

/-- The calls by which the host can change an instance (R110, R111); `get` changes nothing. -/
inductive HostCall where
  | step
  | insertInput (v : Word)
  | set (a : Int) (v : Word)
  | reset
deriving DecidableEq, Repr

/-- The state a host call leaves where it succeeds, and the unchanged state where it fails (R111). -/
def State.after (s : State) : Except HostError State → State
  | .ok t => t
  | .error _ => s

/-- The state after a host call. -/
def State.call (s : State) : HostCall → State
  | .step => s.stepCall.2
  | .insertInput v => s.after (s.insertInput v)
  | .set a v => s.after (s.hostSet a v)
  | .reset => s.after s.hostReset

/-- The state after a sequence of host calls, one at a time (R110). -/
def State.calls (s : State) : List HostCall → State
  | [] => s
  | c :: cs => (s.call c).calls cs

/-- Why `run` returned (R116). -/
inductive RunEnd where
  | halted
  | inputExhausted
  | failed (k : Fault)
deriving DecidableEq, Repr

/-- What `run` returned, with the instance it leaves (R116). -/
structure RunResult where
  reason : RunEnd
  outs : List Word
  final : State
deriving DecidableEq, Repr

/-- `run(inputs)` (R116) with the outputs emitted so far, for at most `fuel` steps; none where the steps do not suffice.
The spec's `run` has no fuel and does not return where no fuel suffices (log entry 8). -/
def runFor : Nat → State → List Word → List Word → Option RunResult
  | 0, _, _, _ => none
  | fuel + 1, s, inputs, outs =>
    match s.stepCall with
    | (.status .running, t) => runFor fuel t inputs outs
    | (.status (.output v), t) => runFor fuel t inputs (outs ++ [v])
    | (.status .awaitingInput, t) =>
      match inputs with
      | [] => some ⟨.inputExhausted, outs, t⟩
      | v :: rest => runFor fuel (t.call (.insertInput v)) rest outs
    | (.status .halted, t) => some ⟨.halted, outs, t⟩
    | (.failed k, t) => some ⟨.failed k, outs, t⟩
    | (.noStep, _) => none

/-- `run(inputs)` on `s` returns `r` (R116). -/
def RunsTo (s : State) (inputs : List Word) (r : RunResult) : Prop := ∃ fuel, runFor fuel s inputs [] = some r

end Sys2Proof.Machine
end

