-- ==== Sys2Proof/Safety.lean ====
section
/-! DEFINITION. What the claims are stated in: the invariant of an instance, and when a run has ended well or badly
(70_reset_and_hazards.md R128). -/

namespace Sys2Proof.Machine

/-- What holds of every instance: it holds at construction, and every step and host call keeps it. -/
structure State.Inv (s : State) : Prop where
  /-- Memory is in its canonical form. -/
  canonical : s.mem.wf = true
  /-- Every listed cell is a valid address (20_memory.md R35). -/
  cellsValid : ∀ e ∈ s.mem, e.1 < s.params.memLimit
  /-- `pc` lies in `[0, MEM_LIMIT]` (10_state.md R16). -/
  pcInRange : s.pc ≤ s.params.memLimit
  /-- The program fits (00_scope.md R6). -/
  programFits : s.params.program.length ≤ s.params.memLimit
  /-- MEM_LIMIT is admissible (00_scope.md R6). -/
  limitAdmissible : s.params.memLimit ≤ Config.maxMemLimit
  /-- `AlreadyHalted` is never recorded as the run state (60_exceptions.md R100). -/
  faultRecorded : s.run ≠ .faulted .alreadyHalted

/-- The instance has ended: every later step fails (R79, R80). -/
def State.Ended (s : State) : Prop := s.run ≠ .active

/-- `run(inputs)` on `s` ends well with these outputs: a step returned Halted, leaving the run state Halted (R128). -/
def EndsWell (s : State) (inputs outs : List Word) : Prop :=
  ∃ t, RunsTo s inputs ⟨.halted, outs, t⟩ ∧ t.run = .halted

/-- `run(inputs)` on `s` ends badly: a step returned a fault kind, leaving the run state Faulted with it (R128). The
AlreadyHalted of a step on an instance that has halted is no such end. -/
def EndsBadly (s : State) (inputs : List Word) : Prop :=
  ∃ k outs t, RunsTo s inputs ⟨.failed k, outs, t⟩ ∧ t.run = .faulted k

end Sys2Proof.Machine
end

