-- ==== Sys2Proof/Certificates/Slice0/Obligations.lean ====
section
/-! DEFINITION. The statements for the provers, from the numbered rules of spec/ file by file. Where one speaks of the
field `ret`, that field is the model's carrier of what `step()` returns (log entry 1); where one speaks of
`State.reset`'s MEM_LIMIT or empty program, those are log entries 2 and 3. -/

open Sys2Proof Sys2Proof.Machine

/-! ### Encoding and the Decoder -/

/-- Decode and encode agree (R57, R62): every instruction with every mode and raw word of every parameter, ill-formed
ones (Immediate destination) too, whatever follows it in Memory. -/
def Obligations.DecodeOfEncodeIsTheInstruction : Prop :=
  ∀ (i : Instr) (rest : List Word), decode (encode i ++ rest) = .ok i

/-- The Decoder succeeds exactly on the words whose digits and parameter cells spell the instruction (R46, R47, R51,
R62, R66). -/
def Obligations.DecodeSucceedsExactlyOnItsWords : Prop :=
  ∀ (cells : List Word) (i : Instr), decode cells = .ok i ↔
    ∃ w ps, cells = w :: ps ∧ 0 ≤ w.toInt ∧ w.toNat % 100 = i.opcode.number ∧
      ∀ k o, i.operands[k]? = some o → digit (k + 2) w.toNat = o.mode.digit ∧ ps[k]? = some o.raw

/-- Which fault the Decoder reports (R62 to R66, R83): no cell, then the sign and the opcode, then the used mode digits,
then the parameter cells. -/
def Obligations.DecodeFaultsInCheckOrder : Prop :=
  decode [] = .error .invalidProgram ∧
  ∀ (w : Word) (ps : List Word),
    decode (w :: ps) ≠ .error .invalidProgram ∧
    (decode (w :: ps) = .error .invalidOperator ↔ w.toInt < 0 ∨ ∀ op : Opcode, op.number ≠ w.toNat % 100) ∧
    ∀ op : Opcode, 0 ≤ w.toInt → op.number = w.toNat % 100 →
      (decode (w :: ps) = .error .invalidMode ↔ ∃ k, k < op.nparams ∧ 2 < digit (k + 2) w.toNat) ∧
      (decode (w :: ps) = .error .missingOperand ↔
        (∀ k, k < op.nparams → digit (k + 2) w.toNat ≤ 2) ∧ ps.length < op.nparams)

/-- R52: only the used mode digits matter; with the rule's three examples. -/
def Obligations.UnusedModeDigitsAreIgnored : Prop :=
  (∀ (op : Opcode) (w w' : Word) (ps : List Word), 0 ≤ w.toInt → 0 ≤ w'.toInt →
    w.toNat % 100 = op.number → w'.toNat % 100 = op.number →
    (∀ k, k < op.nparams → digit (k + 2) w.toNat = digit (k + 2) w'.toNat) →
    decode (w :: ps) = decode (w' :: ps)) ∧
  (∀ ps, decode (199 :: ps) = .ok .hlt) ∧
  (∀ p ps, decode (10104 :: p :: ps) = .ok (.out ⟨.immediate, p⟩)) ∧
  (∀ p ps, decode (90009 :: p :: ps) = .ok (.arb ⟨.position, p⟩))

/-- R53: a negative word, and a word whose opcode is 0 or 10 to 98, spell no instruction; a zero word is illegal, so
execution that runs into the zero-filled extension faults. -/
def Obligations.IllegalWordsRaiseInvalidOperator : Prop :=
  (∀ (w : Word) (ps : List Word), w.toInt < 0 → decode (w :: ps) = .error .invalidOperator) ∧
  (∀ (w : Word) (ps : List Word), 0 ≤ w.toInt →
    w.toNat % 100 = 0 ∨ (10 ≤ w.toNat % 100 ∧ w.toNat % 100 ≤ 98) → decode (w :: ps) = .error .invalidOperator) ∧
  (∀ ps, decode (0 :: ps) = .error .invalidOperator) ∧
  (∀ s : State, s.run = .active → s.pc < s.params.memLimit → s.mem.read s.pc = 0 →
    step s = .next { s with run := .faulted .invalidOperator, ret := .failed .invalidOperator })

/-- R60: the table of decoded words, each with any parameter cells; and the resolve fault of the word 11101. -/
def Obligations.SpecTableOfDecodedWords : Prop :=
  (∀ p q r : Word,
    decode [1002, p, q, r] = .ok (.mul ⟨.position, p⟩ ⟨.immediate, q⟩ ⟨.position, r⟩) ∧
    decode [1108, p, q, r] = .ok (.eq ⟨.immediate, p⟩ ⟨.immediate, q⟩ ⟨.position, r⟩) ∧
    decode [204, p] = .ok (.out ⟨.relative, p⟩) ∧
    decode [109, p] = .ok (.arb ⟨.immediate, p⟩) ∧
    decode [21101, p, q, r] = .ok (.add ⟨.immediate, p⟩ ⟨.immediate, q⟩ ⟨.relative, r⟩) ∧
    decode [99] = .ok .hlt ∧
    decode [1105, p, q] = .ok (.jnz ⟨.immediate, p⟩ ⟨.immediate, q⟩) ∧
    decode [0, p, q, r] = .error .invalidOperator ∧
    decode [98, p, q, r] = .error .invalidOperator ∧
    decode [-1, p, q, r] = .error .invalidOperator ∧
    decode [301, p, q, r] = .error .invalidMode ∧
    decode [11101, p, q, r] = .ok (.add ⟨.immediate, p⟩ ⟨.immediate, q⟩ ⟨.immediate, r⟩) ∧
    decode [100099] = .ok .hlt) ∧
  (∀ (p q r : Word) (s : State),
    exec (.add ⟨.immediate, p⟩ ⟨.immediate, q⟩ ⟨.immediate, r⟩) s =
      .next { s with run := .faulted .writeToImmediate, ret := .failed .writeToImmediate })

/-- A well-formed instruction never raises WriteToImmediate, and an ill-formed one never completes: it raises that
fault, or the fault of an earlier parameter (R54 (b), R77). -/
def Obligations.WellFormednessDecidesImmediateWrites : Prop :=
  ∀ (i : Instr) (s t : State), exec i s = .next t →
    (i.wellFormed = true → t.ret ≠ .failed .writeToImmediate) ∧
    (i.wellFormed = false →
      ∃ k, (k = .writeToImmediate ∨ k = .invalidProgram) ∧ t = { s with run := .faulted k, ret := .failed k })

/-! ### The step -/

/-- A step of an active instance whose cells at `pc` decode to `i` is the effect of `i`, and nothing is added around it
(R78). -/
def Obligations.StepRunsTheDecodedInstruction : Prop :=
  ∀ (s : State) (i : Instr), s.run = .active → decode s.fetchCells = .ok i → step s = exec i s

/-- An instruction whose words stand in Memory from `pc` on, all of them valid cells, is what the next step runs
(R45, R61, R78). -/
def Obligations.StepRunsTheEncodedInstructionInMemory : Prop :=
  ∀ (s : State) (i : Instr), s.run = .active → s.pc + (encode i).length ≤ s.params.memLimit →
    (∀ k w, (encode i)[k]? = some w → s.mem.read (s.pc + k) = w) → step s = exec i s

/-- The word of an opcode-table row laid into the fetched cells (log entry 6, the model's layout) is what the next step
runs. -/
def Obligations.StepRunsTheTableWord : Prop :=
  ∀ (s : State) (nbits w : Nat) (i : Instr), s.run = .active → s.pc + 4 ≤ s.params.memLimit →
    decodeTableWord nbits w = some i → step (s.withFetchWord nbits w) = exec i (s.withFetchWord nbits w)

/-- R63: a fetch at an invalid `pc` faults and changes nothing but the run state; and no jump sets an invalid `pc`. -/
def Obligations.InvalidFetchFaults : Prop :=
  (∀ s : State, s.run = .active → ¬ s.Valid s.pc →
    step s = .next { s with run := .faulted .invalidProgram, ret := .failed .invalidProgram }) ∧
  (∀ (a b : Operand) (s t : State), exec (.jnz a b) s = .next t ∨ exec (.jz a b) s = .next t →
    t.pc = s.pc ∨ t.pc = s.pc + 3 ∨ t.Valid t.pc)

/-- R79: a step after Halt fails with AlreadyHalted and changes no state, and so does every later one. -/
def Obligations.StepAfterHaltFails : Prop :=
  ∀ s : State, s.run = .halted → step s = .fault .alreadyHalted ∧
    ∀ n, s.calls (List.replicate n .step) = s ∧
      (s.calls (List.replicate n .step)).stepCall = (.failed .alreadyHalted, s)

/-- R80: a step after a fault fails with the same kind and changes no state. -/
def Obligations.StepAfterFaultFailsAgain : Prop :=
  ∀ (s : State) (k : Fault), s.run = .faulted k → step s = .fault k ∧
    ∀ n, s.calls (List.replicate n .step) = s ∧ (s.calls (List.replicate n .step)).stepCall = (.failed k, s)

/-- R100: a step that raises writes the run state and nothing else, never AlreadyHalted; the faulted state is never
left; AlreadyHalted writes nothing. -/
def Obligations.FaultsArePreciseAndSticky : Prop :=
  (∀ (s t : State) (k : Fault), step s = .next t → t.ret = .failed k →
    t = { s with run := .faulted k, ret := .failed k } ∧ k ≠ .alreadyHalted) ∧
  (∀ (s : State) (k : Fault), s.run = .faulted k →
    step s = .fault k ∧ ∀ cs : List HostCall, (s.calls cs).run = .faulted k) ∧
  (∀ s : State, s.run = .halted → s.stepCall = (.failed .alreadyHalted, s))

/-- Every step of an active instance has a next state: no instruction, word or operand stops the model (R78, R100). -/
def Obligations.ActiveStepHasANextState : Prop :=
  (∀ s : State, s.run = .active → ∃ t, step s = .next t) ∧ (∀ (i : Instr) (s : State), ∃ t, exec i s = .next t)

/-- R17: how each instruction moves `pc`, and that a faulting step does not. -/
def Obligations.PcUpdatePerInstruction : Prop :=
  ∀ (i : Instr) (s t : State), exec i s = .next t →
    ((∃ k, t.ret = .failed k) → t.pc = s.pc) ∧
    ((∀ k, t.ret ≠ .failed k) →
      match i with
      | .add _ _ _ => t.pc = s.pc + i.opcode.len
      | .mul _ _ _ => t.pc = s.pc + i.opcode.len
      | .out _ => t.pc = s.pc + i.opcode.len
      | .lt _ _ _ => t.pc = s.pc + i.opcode.len
      | .eq _ _ _ => t.pc = s.pc + i.opcode.len
      | .arb _ => t.pc = s.pc + i.opcode.len
      | .inp _ => (s.slot = none → t.pc = s.pc) ∧ (s.slot ≠ none → t.pc = s.pc + i.opcode.len)
      | .jnz a b => ∃ x y, s.readOperand a = .ok x ∧ s.readOperand b = .ok y ∧
          (x.toInt ≠ 0 → (t.pc : Int) = y.toInt) ∧ (x.toInt = 0 → t.pc = s.pc + i.opcode.len)
      | .jz a b => ∃ x y, s.readOperand a = .ok x ∧ s.readOperand b = .ok y ∧
          (x.toInt = 0 → (t.pc : Int) = y.toInt) ∧ (x.toInt ≠ 0 → t.pc = s.pc + i.opcode.len)
      | .hlt => t.pc = s.pc)

/-- R82: the status each instruction returns. -/
def Obligations.StatusPerInstruction : Prop :=
  ∀ (i : Instr) (s t : State), exec i s = .next t → (∀ k, t.ret ≠ .failed k) →
    match i with
    | .add _ _ _ => t.ret = .status .running
    | .mul _ _ _ => t.ret = .status .running
    | .inp _ => (s.slot ≠ none → t.ret = .status .running) ∧ (s.slot = none → t.ret = .status .awaitingInput)
    | .out a => ∃ v, s.readOperand a = .ok v ∧ t.ret = .status (.output v)
    | .jnz _ _ => t.ret = .status .running
    | .jz _ _ => t.ret = .status .running
    | .lt _ _ _ => t.ret = .status .running
    | .eq _ _ _ => t.ret = .status .running
    | .arb _ => t.ret = .status .running
    | .hlt => t.ret = .status .halted

/-- Which fault kinds the resolution and execution of each instruction can raise (the columns operand, destination,
target, WriteToImmediate and ArithmeticOverflow of R96). -/
def Obligations.FaultKindsPerInstruction : Prop :=
  ∀ (i : Instr) (s t : State) (k : Fault), exec i s = .next t → t.ret = .failed k →
    match i with
    | .add _ _ _ => k = .invalidProgram ∨ k = .writeToImmediate ∨ k = .arithmeticOverflow
    | .mul _ _ _ => k = .invalidProgram ∨ k = .writeToImmediate ∨ k = .arithmeticOverflow
    | .inp _ => k = .invalidProgram ∨ k = .writeToImmediate
    | .out _ => k = .invalidProgram
    | .jnz _ _ => k = .invalidProgram
    | .jz _ _ => k = .invalidProgram
    | .lt _ _ _ => k = .invalidProgram ∨ k = .writeToImmediate
    | .eq _ _ _ => k = .invalidProgram ∨ k = .writeToImmediate
    | .arb _ => k = .invalidProgram ∨ k = .arithmeticOverflow
    | .hlt => False

/-- The step is a function of `mem`, `pc`, `bp`, `slot`, `run` and MEM_LIMIT (R126): two states that agree on these give
the same status or fault and the same elements after it, whatever their Programs and the result of the step before (the
model's own field, log entry 1). -/
def Obligations.StepDependsOnTheSpecStateAlone : Prop :=
  ∀ s s' : State, s.params.memLimit = s'.params.memLimit → s.mem = s'.mem → s.pc = s'.pc → s.bp = s'.bp →
    s.slot = s'.slot → s.run = s'.run →
    s.stepCall.1 = s'.stepCall.1 ∧ s.stepCall.2.mem = s'.stepCall.2.mem ∧ s.stepCall.2.pc = s'.stepCall.2.pc ∧
    s.stepCall.2.bp = s'.stepCall.2.bp ∧ s.stepCall.2.slot = s'.stepCall.2.slot ∧ s.stepCall.2.run = s'.stepCall.2.run

/-- No instruction reads or writes the Program (R25): with another Program the step answers the same, that Program
unchanged. -/
def Obligations.StepNeverReadsTheProgram : Prop :=
  ∀ (s : State) (p : List Word),
    (∀ t, step s = .next t →
      step { s with params := { s.params with program := p } } = .next { t with params := { t.params with program := p } }) ∧
    (∀ k, step s = .fault k → step { s with params := { s.params with program := p } } = .fault k) ∧
    (∀ t, step s = .next t → t.params = s.params)

/-! ### Memory -/

/-- Two memories in the canonical form that read alike are equal data. -/
def Obligations.CanonicalMemoriesThatReadAlikeAreEqual : Prop :=
  ∀ m m' : Memory, m.wf = true → m'.wf = true → (∀ a, m.read a = m'.read a) → m = m'

/-- The one cell an instruction may change is the address its destination resolves to in the state before (R30 (d),
R34, R81 (a)): every other cell, and every cell under an instruction without a destination, reads as before. -/
def Obligations.OnlyTheDestinationCellChanges : Prop :=
  ∀ (i : Instr) (s t : State), exec i s = .next t →
    (∀ c d, i.destination = some c → s.writeAddress c = .ok d → ∀ a, a ≠ d → t.mem.read a = s.mem.read a) ∧
    (∀ c k, i.destination = some c → s.writeAddress c = .error k → ∀ a, t.mem.read a = s.mem.read a) ∧
    (i.destination = none → ∀ a, t.mem.read a = s.mem.read a)

/-- A word stored into one of the cells the next fetch reads is fetched, and the other fetched cells are as they were
(R40). -/
def Obligations.StoredWordIsFetched : Prop :=
  ∀ (s : State) (d k : Nat) (v : Word), k < 4 → d = s.pc + k → d < s.params.memLimit →
    (s.store d v).fetchCells[k]? = some v ∧
    ∀ j, j ≠ k → (s.store d v).fetchCells[j]? = s.fetchCells[j]?

/-! ### The Operand Resolver -/

/-- R70 and R72: Position mode, read and write, with the rules' examples. -/
def Obligations.ResolvePosition : Prop :=
  (∀ (s : State) (raw : Word), s.Valid raw.toInt →
    s.resolve ⟨.position, raw⟩ .read = .ok (.value (s.mem.read raw.toInt.toNat)) ∧
    s.resolve ⟨.position, raw⟩ .write = .ok (.addr raw.toInt.toNat) ∧
    ((∀ v, (raw.toInt.toNat, v) ∉ s.mem) → s.resolve ⟨.position, raw⟩ .read = .ok (.value 0))) ∧
  (∀ (s : State) (raw : Word), raw.toInt < 0 ∨ (s.params.memLimit : Int) ≤ raw.toInt →
    s.resolve ⟨.position, raw⟩ .read = .error .invalidProgram ∧
    s.resolve ⟨.position, raw⟩ .write = .error .invalidProgram) ∧
  (∀ s : State, 9 < s.params.memLimit →
    (s.mem.read 9 = 8 → s.resolve ⟨.position, 9⟩ .read = .ok (.value 8)) ∧
    s.resolve ⟨.position, 9⟩ .write = .ok (.addr 9))

/-- R71: Immediate mode read is the raw word, in every state and so without Memory, for every word. -/
def Obligations.ResolveImmediateRead : Prop :=
  ∀ (s : State) (raw : Word), s.resolve ⟨.immediate, raw⟩ .read = .ok (.value raw)

/-- R74: an Immediate destination raises WriteToImmediate whatever Memory holds, and the step writes nothing, for every
instruction with a destination whose earlier parameters resolve (Input: with and without a pending value). -/
def Obligations.ImmediateDestinationFaults : Prop :=
  ∀ (s : State) (raw : Word),
    s.resolve ⟨.immediate, raw⟩ .write = .error .writeToImmediate ∧
    exec (.inp ⟨.immediate, raw⟩) s =
      .next { s with run := .faulted .writeToImmediate, ret := .failed .writeToImmediate } ∧
    ∀ (a b : Operand) (x y : Word), s.readOperand a = .ok x → s.readOperand b = .ok y →
      ∀ i ∈ [Instr.add a b ⟨.immediate, raw⟩, Instr.mul a b ⟨.immediate, raw⟩, Instr.lt a b ⟨.immediate, raw⟩,
          Instr.eq a b ⟨.immediate, raw⟩],
        exec i s = .next { s with run := .faulted .writeToImmediate, ret := .failed .writeToImmediate }

/-- R73, R75 and R76: Relative mode, read and write, on the exact sum `bp + raw`, which never wraps to a valid cell. -/
def Obligations.ResolveRelative : Prop :=
  (∀ (s : State) (raw : Word), s.Valid (s.bp.toInt + raw.toInt) →
    s.resolve ⟨.relative, raw⟩ .read = .ok (.value (s.mem.read (s.bp.toInt + raw.toInt).toNat)) ∧
    s.resolve ⟨.relative, raw⟩ .write = .ok (.addr (s.bp.toInt + raw.toInt).toNat)) ∧
  (∀ (s : State) (raw : Word),
    s.bp.toInt + raw.toInt < 0 ∨ (s.params.memLimit : Int) ≤ s.bp.toInt + raw.toInt →
    s.resolve ⟨.relative, raw⟩ .read = .error .invalidProgram ∧
    s.resolve ⟨.relative, raw⟩ .write = .error .invalidProgram) ∧
  (∀ (s : State) (raw : Word),
    2 * Config.wMin ≤ s.bp.toInt + raw.toInt ∧ s.bp.toInt + raw.toInt ≤ 2 * Config.wMax) ∧
  (∀ s : State, s.bp = 1 → 0 < s.params.memLimit →
    s.resolve ⟨.relative, -1⟩ .read = .ok (.value (s.mem.read 0))) ∧
  (∀ s : State, s.bp = 2000 → 1993 < s.params.memLimit →
    s.resolve ⟨.relative, -7⟩ .write = .ok (.addr 1993))

/-- The first parameter in slot order that fails to resolve is the fault reported, in every instruction (R77, R83,
R97). -/
def Obligations.FirstFailingParameterIsReported : Prop :=
  ∀ (i : Instr) (s : State) (j : Nat) (o : Operand) (it : Intent) (k : Fault),
    i.operands[j]? = some o → i.opcode.intents[j]? = some it → s.resolve o it = .error k →
    (∀ j' o' it', j' < j → i.operands[j']? = some o' → i.opcode.intents[j']? = some it' →
      ∃ r, s.resolve o' it' = .ok r) →
    exec i s = .next { s with run := .faulted k, ret := .failed k }

/-! ### The instructions: result and frame -/

/-- Add completes when its parameters resolve and the sum is in range (R85): the destination cell reads as the exact
sum of the values read before the write, every other cell reads as before, and only Memory, `pc` and the result
change. -/
def Obligations.AddStoresTheSum : Prop :=
  ∀ (a b c : Operand) (s : State) (x y : Word) (d : Nat),
    s.readOperand a = .ok x → s.readOperand b = .ok y → s.writeAddress c = .ok d → InRange (x.toInt + y.toInt) →
    ∃ t, exec (.add a b c) s = .next t ∧ (t.mem.read d).toInt = x.toInt + y.toInt ∧
      (∀ e, e ≠ d → t.mem.read e = s.mem.read e) ∧
      t = { s with mem := t.mem, pc := s.pc + 4, ret := .status .running }

/-- Mul completes when its parameters resolve and the product is in range (R86); frame as for Add. -/
def Obligations.MulStoresTheProduct : Prop :=
  ∀ (a b c : Operand) (s : State) (x y : Word) (d : Nat),
    s.readOperand a = .ok x → s.readOperand b = .ok y → s.writeAddress c = .ok d → InRange (x.toInt * y.toInt) →
    ∃ t, exec (.mul a b c) s = .next t ∧ (t.mem.read d).toInt = x.toInt * y.toInt ∧
      (∀ e, e ≠ d → t.mem.read e = s.mem.read e) ∧
      t = { s with mem := t.mem, pc := s.pc + 4, ret := .status .running }

/-- Add, Mul and AdjustBase raise ArithmeticOverflow on a result out of range, with nothing written (R85, R86, R93). -/
def Obligations.OutOfRangeResultsRaiseOverflow : Prop :=
  (∀ (a b c : Operand) (s : State) (x y : Word) (d : Nat),
    s.readOperand a = .ok x → s.readOperand b = .ok y → s.writeAddress c = .ok d →
    (¬ InRange (x.toInt + y.toInt) → exec (.add a b c) s =
      .next { s with run := .faulted .arithmeticOverflow, ret := .failed .arithmeticOverflow }) ∧
    (¬ InRange (x.toInt * y.toInt) → exec (.mul a b c) s =
      .next { s with run := .faulted .arithmeticOverflow, ret := .failed .arithmeticOverflow })) ∧
  (∀ (a : Operand) (s : State) (v : Word), s.readOperand a = .ok v → ¬ InRange (s.bp.toInt + v.toInt) →
    exec (.arb a) s = .next { s with run := .faulted .arithmeticOverflow, ret := .failed .arithmeticOverflow })

/-- LessThan completes when its parameters resolve (R91): the destination cell reads 1 where the first value is the
smaller signed integer, else 0; frame as for Add. -/
def Obligations.LessThanStoresTheComparison : Prop :=
  ∀ (a b c : Operand) (s : State) (x y : Word) (d : Nat),
    s.readOperand a = .ok x → s.readOperand b = .ok y → s.writeAddress c = .ok d →
    ∃ t, exec (.lt a b c) s = .next t ∧ (x.toInt < y.toInt → t.mem.read d = 1) ∧ (y.toInt ≤ x.toInt → t.mem.read d = 0) ∧
      (∀ e, e ≠ d → t.mem.read e = s.mem.read e) ∧
      t = { s with mem := t.mem, pc := s.pc + 4, ret := .status .running }

/-- Equal completes when its parameters resolve (R92): the destination cell reads 1 where the values are equal, else 0;
frame as for Add. -/
def Obligations.EqualStoresTheComparison : Prop :=
  ∀ (a b c : Operand) (s : State) (x y : Word) (d : Nat),
    s.readOperand a = .ok x → s.readOperand b = .ok y → s.writeAddress c = .ok d →
    ∃ t, exec (.eq a b c) s = .next t ∧ (x = y → t.mem.read d = 1) ∧ (x ≠ y → t.mem.read d = 0) ∧
      (∀ e, e ≠ d → t.mem.read e = s.mem.read e) ∧
      t = { s with mem := t.mem, pc := s.pc + 4, ret := .status .running }

/-- Input with a pending value completes when its destination resolves (R87): the cell reads as the value, the slot is
emptied, every other cell reads as before. -/
def Obligations.InputStoresThePendingValue : Prop :=
  ∀ (c : Operand) (s : State) (v : Word) (d : Nat), s.writeAddress c = .ok d → s.slot = some v →
    ∃ t, exec (.inp c) s = .next t ∧ t.mem.read d = v ∧ (∀ e, e ≠ d → t.mem.read e = s.mem.read e) ∧
      t = { s with mem := t.mem, slot := none, pc := s.pc + 2, ret := .status .running }

/-- Input with no pending value and a destination that resolves returns AwaitingInput and changes nothing else, however
often it is stepped (R87, resume idempotence). -/
def Obligations.StalledInputIsIdempotent : Prop :=
  ∀ (c : Operand) (s : State) (d n : Nat), s.run = .active → decode s.fetchCells = .ok (.inp c) →
    s.writeAddress c = .ok d → s.slot = none →
    step (s.calls (List.replicate n .step)) = .next { s with ret := .status .awaitingInput }

/-- Output completes when its parameter resolves (R88): it returns the value, moves `pc` past the two words, and changes
nothing else. -/
def Obligations.OutputReturnsTheValue : Prop :=
  ∀ (a : Operand) (s : State) (v : Word), s.readOperand a = .ok v →
    exec (.out a) s = .next { s with pc := s.pc + 2, ret := .status (.output v) }

/-- JumpIfTrue (R89): not taken on 0, whatever the target; taken on every other value to a valid target; InvalidProgram
when taken to an invalid one. Nothing but `pc` and the result changes where it completes. -/
def Obligations.JumpIfTrueTakesTheTargetOnNonzero : Prop :=
  ∀ (a b : Operand) (s : State) (x y : Word), s.readOperand a = .ok x → s.readOperand b = .ok y →
    (x.toInt ≠ 0 → s.Valid y.toInt →
      exec (.jnz a b) s = .next { s with pc := y.toInt.toNat, ret := .status .running }) ∧
    (x.toInt ≠ 0 → ¬ s.Valid y.toInt →
      exec (.jnz a b) s = .next { s with run := .faulted .invalidProgram, ret := .failed .invalidProgram }) ∧
    (x.toInt = 0 → exec (.jnz a b) s = .next { s with pc := s.pc + 3, ret := .status .running })

/-- JumpIfFalse (R90): as JumpIfTrue, taken only on 0. -/
def Obligations.JumpIfFalseTakesTheTargetOnZero : Prop :=
  ∀ (a b : Operand) (s : State) (x y : Word), s.readOperand a = .ok x → s.readOperand b = .ok y →
    (x.toInt = 0 → s.Valid y.toInt →
      exec (.jz a b) s = .next { s with pc := y.toInt.toNat, ret := .status .running }) ∧
    (x.toInt = 0 → ¬ s.Valid y.toInt →
      exec (.jz a b) s = .next { s with run := .faulted .invalidProgram, ret := .failed .invalidProgram }) ∧
    (x.toInt ≠ 0 → exec (.jz a b) s = .next { s with pc := s.pc + 3, ret := .status .running })

/-- AdjustBase completes when its parameter resolves, with the old `bp`, and the sum is in range (R93): `bp` becomes the
exact sum, negative or not, `pc` moves past the two words, and nothing else changes. -/
def Obligations.AdjustBaseAddsToBp : Prop :=
  ∀ (a : Operand) (s : State) (v : Word), s.readOperand a = .ok v → InRange (s.bp.toInt + v.toInt) →
    ∃ r : Word, r.toInt = s.bp.toInt + v.toInt ∧
      exec (.arb a) s = .next { s with bp := r, pc := s.pc + 2, ret := .status .running }

/-- Halt completes in every state (R94): the run state becomes Halted; `pc`, `bp`, Memory and the slot stay. -/
def Obligations.HaltSetsTheRunState : Prop :=
  ∀ s : State, exec .hlt s = .next { s with run := .halted, ret := .status .halted }

/-- AdjustBase is the only instruction that changes `bp`, and it adds its value to it (R19, R93). -/
def Obligations.OnlyAdjustBaseChangesBp : Prop :=
  ∀ (i : Instr) (s t : State), exec i s = .next t → t.bp ≠ s.bp →
    ∃ a v, i = .arb a ∧ s.readOperand a = .ok v ∧ t.bp.toInt = s.bp.toInt + v.toInt

/-- Input is the only instruction that changes the slot: it empties it, having stored the value at its destination
(R20, R87); Halt leaves a pending value where it is (R94). -/
def Obligations.OnlyInputChangesTheSlot : Prop :=
  ∀ (i : Instr) (s t : State), exec i s = .next t → t.slot ≠ s.slot →
    ∃ c d v, i = .inp c ∧ s.writeAddress c = .ok d ∧ s.slot = some v ∧ t.slot = none ∧ t.mem.read d = v

/-- The run state changes only by Halt and by a fault (R21, R27). -/
def Obligations.OnlyHaltAndFaultsChangeTheRunState : Prop :=
  ∀ (i : Instr) (s t : State), exec i s = .next t → t.run ≠ s.run →
    (i = .hlt ∧ t.run = .halted) ∨ ∃ k, t = { s with run := .faulted k, ret := .failed k }

/-! ### Reset, construction and the host interface -/

/-- R119: every element after `new(program)`, and after a `reset()` that succeeds. -/
def Obligations.ConstructionAndResetState : Prop :=
  (∀ (limit : Nat) (prog : List Int) (s : State), newInstance limit prog = .ok s →
    (∀ a v, prog[a]? = some v → (s.mem.read a).toInt = v) ∧ (∀ a, prog.length ≤ a → s.mem.read a = 0) ∧
    s.pc = 0 ∧ s.bp = 0 ∧ s.slot = none ∧ s.run = .active) ∧
  (∀ s t : State, s.hostReset = .ok t →
    (∀ a v, s.params.program[a]? = some v → t.mem.read a = v) ∧
    (∀ a, s.params.program.length ≤ a → t.mem.read a = 0) ∧
    t.pc = 0 ∧ t.bp = 0 ∧ t.slot = none ∧ t.run = .active)

/-- `new` fails exactly where a program word is out of the word range, with ProgramWordOutOfRange, and otherwise gives
an instance with the MEM_LIMIT and the program handed over (R118, 92 D21). -/
def Obligations.ConstructionChecksTheProgramWords : Prop :=
  ∀ (limit : Nat) (prog : List Int),
    ((∃ v ∈ prog, ¬ InRange v) → newInstance limit prog = .error .programWordOutOfRange) ∧
    ((∀ v ∈ prog, InRange v) → ∃ s, newInstance limit prog = .ok s ∧ s.params.memLimit = limit ∧
      s.params.program.map BitVec.toInt = prog)

/-- `insert_input` fills an empty slot and fails on a full one, in every run state; a value inserted into an instance
that has ended is never consumed (R113). On a halted instance the first and third clauses are the model's reading, log
entry 13 (DEDUCED: R113 is followed over R129's "Only the host's `set` and `reset` change a halted instance"). -/
def Obligations.InsertInputFillsTheEmptySlot : Prop :=
  (∀ (s : State) (v : Word), s.slot = none → s.insertInput v = .ok { s with slot := some v }) ∧
  (∀ (s : State) (v w : Word), s.slot = some w →
    s.insertInput v = .error .inputOverrun ∧ s.call (.insertInput v) = s) ∧
  (∀ (s : State) (v : Word) (n : Nat), s.slot = none → s.run ≠ .active →
    ((s.call (.insertInput v)).calls (List.replicate n .step)).slot = some v)

/-- R114: `get` and `set` at a valid address in every run state, and their failure at an invalid one; a `set` changes
one cell and nothing else, and the next step's fetch sees it. -/
def Obligations.HostGetAndSet : Prop :=
  (∀ (s : State) (a : Int) (v : Word), s.Valid a →
    s.hostGet a = .ok (s.mem.read a.toNat) ∧
    ∃ t, s.hostSet a v = .ok t ∧ t = { s with mem := t.mem } ∧ t.mem.read a.toNat = v ∧
      (∀ e, e ≠ a.toNat → t.mem.read e = s.mem.read e) ∧
      (∀ k : Nat, k < 4 → a = ((s.pc + k : Nat) : Int) → t.fetchCells[k]? = some v)) ∧
  (∀ (s : State) (a : Int) (v : Word), ¬ s.Valid a →
    s.hostGet a = .error .addressOutOfRange ∧ s.hostSet a v = .error .addressOutOfRange ∧ s.call (.set a v) = s)

/-- R115: `reset` on an active or halted instance gives the construction state; on a faulted one it fails and changes
nothing. -/
def Obligations.HostResetRestoresOrRefuses : Prop :=
  (∀ s : State, s.run = .active ∨ s.run = .halted → s.hostReset = .ok (State.construct s.params)) ∧
  (∀ (s : State) (k : Fault), s.run = .faulted k → s.hostReset = .error .resetRefused ∧ s.call .reset = s)

/-- Re-running (R122): after any sequence of host calls on a new instance that has not faulted, `reset` gives the
construction state again, and the same calls then give the same states and results. -/
def Obligations.ResetReproducesTheRun : Prop :=
  ∀ (limit : Nat) (prog : List Int) (s : State) (cs : List HostCall), newInstance limit prog = .ok s →
    (∀ k, (s.calls cs).run ≠ .faulted k) →
    (s.calls cs).hostReset = .ok s ∧ ∀ cs', ((s.calls cs).call .reset).calls cs' = s.calls cs'

/-- `run(inputs)` returns at most one result (R116, R126): the fuel of the model decides only whether it is reached. -/
def Obligations.RunResultIsUnique : Prop :=
  ∀ (s : State) (inputs : List Word) (r r' : RunResult), RunsTo s inputs r → RunsTo s inputs r' → r = r'

/-- How a run that begins on an active instance leaves it (R128): Halted where it ended well, Faulted with the kind it
returned where it ended badly, waiting with an empty slot where the inputs ran out. -/
def Obligations.RunLeavesTheStateOfItsReason : Prop :=
  ∀ (s : State) (inputs : List Word) (r : RunResult), s.run = .active → RunsTo s inputs r →
    match r.reason with
    | .halted => r.final.run = .halted
    | .failed k => r.final.run = .faulted k
    | .inputExhausted => r.final.run = .active ∧ r.final.slot = none ∧ r.final.ret = .status .awaitingInput

/-! ### The invariant -/

/-- The invariant holds right after reset (log entries 2 and 3 for its MEM_LIMIT and empty program). -/
def Obligations.ResetMeetsTheInvariant : Prop := State.reset.Inv

/-- The invariant holds of every constructed instance whose MEM_LIMIT is admissible (R6, R118). -/
def Obligations.ConstructionMeetsTheInvariant : Prop :=
  ∀ (limit : Nat) (prog : List Int) (s : State), newInstance limit prog = .ok s → prog.length ≤ limit →
    limit ≤ Config.maxMemLimit → s.Inv

/-- Every step keeps the invariant: the canonical memory, the bound on its cells, `pc` in `[0, MEM_LIMIT]` (R16), and no
AlreadyHalted recorded (R100). -/
def Obligations.StepKeepsTheInvariant : Prop :=
  ∀ s t : State, s.Inv → step s = .next t → t.Inv

/-- Every sequence of host calls keeps the invariant. -/
def Obligations.HostCallsKeepTheInvariant : Prop :=
  ∀ (s : State) (cs : List HostCall), s.Inv → (s.calls cs).Inv

/-! ### The driver and the end of a run -/

/-- `run(inputs)` follows what its first step returns (R116): on Running it is the run from the state after; on Output
that run with the value before its outputs; on AwaitingInput it inserts the first input and goes on with the rest, or
returns InputExhausted where there is none; on Halted and on a fault it returns that, with no output of its own. -/
def Obligations.RunFollowsTheStepResults : Prop :=
  ∀ (s t : State) (inputs : List Word),
    (s.stepCall = (.status .running, t) → ∀ r, RunsTo s inputs r ↔ RunsTo t inputs r) ∧
    (∀ v, s.stepCall = (.status (.output v), t) →
      ∀ r, RunsTo s inputs r ↔ ∃ r', RunsTo t inputs r' ∧ r = { r' with outs := v :: r'.outs }) ∧
    (∀ v rest, s.stepCall = (.status .awaitingInput, t) → inputs = v :: rest →
      ∀ r, RunsTo s inputs r ↔ RunsTo (t.call (.insertInput v)) rest r) ∧
    (s.stepCall = (.status .awaitingInput, t) → inputs = [] → ∀ r, RunsTo s inputs r ↔ r = ⟨.inputExhausted, [], t⟩) ∧
    (s.stepCall = (.status .halted, t) → ∀ r, RunsTo s inputs r ↔ r = ⟨.halted, [], t⟩) ∧
    (∀ k, s.stepCall = (.failed k, t) → ∀ r, RunsTo s inputs r ↔ r = ⟨.failed k, [], t⟩)

/-- The end of a run (R128): a run that begins on an active instance and returns ended well exactly where it returned
Halted, and badly exactly where it returned a fault kind; a run waiting for input did neither. A run on an instance that
has halted before ends neither way. -/
def Obligations.RunEndsWellBadlyOrWaits : Prop :=
  (∀ (s : State) (inputs : List Word) (r : RunResult), s.run = .active → RunsTo s inputs r →
    (∀ outs, EndsWell s inputs outs ↔ r.reason = .halted ∧ r.outs = outs) ∧
    (EndsBadly s inputs ↔ ∃ k, r.reason = .failed k) ∧
    (r.reason = .inputExhausted → ¬ r.final.Ended)) ∧
  (∀ (s : State) (inputs outs : List Word), s.run = .halted → ¬ EndsWell s inputs outs ∧ ¬ EndsBadly s inputs)

/-! ### The step's failures and its result -/

/-- What a step of an active instance does where the Decoder fails: each of its four faults becomes the run state
Faulted with the kind of that name, and nothing else changes (R62 to R66, R99, R100). The result is the model's field
`ret` (log entry 1). -/
def Obligations.StepReportsTheDecoderFault : Prop :=
  ∀ s : State, s.run = .active →
    (decode s.fetchCells = .error .invalidProgram →
      step s = .next { s with run := .faulted .invalidProgram, ret := .failed .invalidProgram }) ∧
    (decode s.fetchCells = .error .invalidOperator →
      step s = .next { s with run := .faulted .invalidOperator, ret := .failed .invalidOperator }) ∧
    (decode s.fetchCells = .error .invalidMode →
      step s = .next { s with run := .faulted .invalidMode, ret := .failed .invalidMode }) ∧
    (decode s.fetchCells = .error .missingOperand →
      step s = .next { s with run := .faulted .missingOperand, ret := .failed .missingOperand })

/-- `step()` as the host calls it is the step (R112): on an active instance there is a next state, and the call returns
the result it carries (the model's field `ret`, log entry 1) and that state; where the step is a fault the call returns
its kind and the unchanged state. -/
def Obligations.StepCallIsTheStep : Prop :=
  (∀ s : State, s.run = .active → ∃ t, step s = .next t ∧ s.stepCall = (t.ret, t) ∧ s.call .step = t) ∧
  (∀ s t : State, step s = .next t → s.stepCall = (t.ret, t) ∧ s.call .step = t) ∧
  (∀ (s : State) (k : Fault), step s = .fault k → s.stepCall = (.failed k, s) ∧ s.call .step = s)
end

