-- ==== Sys2Proof/Laws/State.lean ====
section
/-! SUPPORT. One lemma per field per update of the state, each true by rfl, so that no later proof unfolds an update. -/

namespace Sys2Proof.Machine

variable (s : State)

@[simp] theorem State.store_params (d : Nat) (v : Word) : (s.store d v).params = s.params := rfl
@[simp] theorem State.store_mem (d : Nat) (v : Word) : (s.store d v).mem = s.mem.write d v := rfl
@[simp] theorem State.store_pc (d : Nat) (v : Word) : (s.store d v).pc = s.pc := rfl
@[simp] theorem State.store_bp (d : Nat) (v : Word) : (s.store d v).bp = s.bp := rfl
@[simp] theorem State.store_slot (d : Nat) (v : Word) : (s.store d v).slot = s.slot := rfl
@[simp] theorem State.store_run (d : Nat) (v : Word) : (s.store d v).run = s.run := rfl
@[simp] theorem State.store_ret (d : Nat) (v : Word) : (s.store d v).ret = s.ret := rfl

@[simp] theorem State.advance_params (n : Nat) : (s.advance n).params = s.params := rfl
@[simp] theorem State.advance_mem (n : Nat) : (s.advance n).mem = s.mem := rfl
@[simp] theorem State.advance_pc (n : Nat) : (s.advance n).pc = s.pc + n := rfl
@[simp] theorem State.advance_bp (n : Nat) : (s.advance n).bp = s.bp := rfl
@[simp] theorem State.advance_slot (n : Nat) : (s.advance n).slot = s.slot := rfl
@[simp] theorem State.advance_run (n : Nat) : (s.advance n).run = s.run := rfl
@[simp] theorem State.advance_ret (n : Nat) : (s.advance n).ret = s.ret := rfl

@[simp] theorem State.setPc_params (t : Nat) : (s.setPc t).params = s.params := rfl
@[simp] theorem State.setPc_mem (t : Nat) : (s.setPc t).mem = s.mem := rfl
@[simp] theorem State.setPc_pc (t : Nat) : (s.setPc t).pc = t := rfl
@[simp] theorem State.setPc_bp (t : Nat) : (s.setPc t).bp = s.bp := rfl
@[simp] theorem State.setPc_slot (t : Nat) : (s.setPc t).slot = s.slot := rfl
@[simp] theorem State.setPc_run (t : Nat) : (s.setPc t).run = s.run := rfl
@[simp] theorem State.setPc_ret (t : Nat) : (s.setPc t).ret = s.ret := rfl

@[simp] theorem State.answer_params (st : Status) : (s.answer st).params = s.params := rfl
@[simp] theorem State.answer_mem (st : Status) : (s.answer st).mem = s.mem := rfl
@[simp] theorem State.answer_pc (st : Status) : (s.answer st).pc = s.pc := rfl
@[simp] theorem State.answer_bp (st : Status) : (s.answer st).bp = s.bp := rfl
@[simp] theorem State.answer_slot (st : Status) : (s.answer st).slot = s.slot := rfl
@[simp] theorem State.answer_run (st : Status) : (s.answer st).run = s.run := rfl
@[simp] theorem State.answer_ret (st : Status) : (s.answer st).ret = .status st := rfl

@[simp] theorem State.raise_params (k : Fault) : (s.raise k).params = s.params := rfl
@[simp] theorem State.raise_mem (k : Fault) : (s.raise k).mem = s.mem := rfl
@[simp] theorem State.raise_pc (k : Fault) : (s.raise k).pc = s.pc := rfl
@[simp] theorem State.raise_bp (k : Fault) : (s.raise k).bp = s.bp := rfl
@[simp] theorem State.raise_slot (k : Fault) : (s.raise k).slot = s.slot := rfl
@[simp] theorem State.raise_run (k : Fault) : (s.raise k).run = .faulted k := rfl
@[simp] theorem State.raise_ret (k : Fault) : (s.raise k).ret = .failed k := rfl

@[simp] theorem State.conclude_ok (t : State) : s.conclude (.ok t) = .next t := rfl
@[simp] theorem State.conclude_error (k : Fault) : s.conclude (.error k) = .next (s.raise k) := rfl

end Sys2Proof.Machine
end

