-- ==== Sys2Proof/Laws/Operands.lean ====
section
/-! SUPPORT. What the shared operations of the Resolver and the range check can answer: one lemma each, cited instead of
unfolding. -/

namespace Sys2Proof.Machine

@[simp] theorem bind_ok {ε α β : Type} (x : α) (f : α → Except ε β) : (Except.ok x >>= f) = f x := rfl
@[simp] theorem bind_error {ε α β : Type} (k : ε) (f : α → Except ε β) :
    ((Except.error k : Except ε α) >>= f) = .error k := rfl
@[simp] theorem pure_ok {ε α : Type} (x : α) : (pure x : Except ε α) = .ok x := rfl

/-- A sequence of checks succeeds exactly when each of them does. -/
theorem bind_eq_ok {ε α β : Type} {x : Except ε α} {f : α → Except ε β} {r : β} :
    (x >>= f) = .ok r ↔ ∃ a, x = .ok a ∧ f a = .ok r := by
  cases x <;> simp

/-- A sequence of checks fails with the first that fails. -/
theorem bind_eq_error {ε α β : Type} {x : Except ε α} {f : α → Except ε β} {k : ε} :
    (x >>= f) = .error k ↔ x = .error k ∨ ∃ a, x = .ok a ∧ f a = .error k := by
  cases x <;> simp

theorem narrow_ok_iff {v : Int} {r : Word} : narrow v = .ok r ↔ r.toInt = v := by
  have hr := BitVec.toInt_lt (x := r)
  have hr' := BitVec.le_toInt (x := r)
  unfold narrow
  constructor
  · split
    · rename_i h
      rintro ⟨⟩
      rw [BitVec.toInt_ofInt]
      have h1 : Config.wMin = -9223372036854775808 := rfl
      have h2 : Config.wMax = 9223372036854775807 := rfl
      exact Int.bmod_eq_of_le (by omega) (by omega)
    · simp
  · rintro rfl
    have h1 : Config.wMin = -9223372036854775808 := rfl
    have h2 : Config.wMax = 9223372036854775807 := rfl
    rw [if_pos ⟨by omega, by omega⟩, BitVec.ofInt_toInt]

theorem narrow_of_inRange {v : Int} (h : InRange v) : ∃ r : Word, narrow v = .ok r ∧ r.toInt = v := by
  have hr : narrow v = .ok (BitVec.ofInt 64 v) := by simp [narrow, h]
  exact ⟨_, hr, narrow_ok_iff.1 hr⟩

theorem narrow_of_not_inRange {v : Int} (h : ¬ InRange v) : narrow v = .error .arithmeticOverflow := by
  simp only [narrow, h, if_false]

theorem narrow_error {v : Int} {k : Fault} (h : narrow v = .error k) : k = .arithmeticOverflow := by
  unfold narrow at h
  split at h <;> simp_all

theorem State.cellAddress_of_valid {s : State} {v : Int} (h : s.Valid v) : s.cellAddress v = .ok v.toNat := if_pos h

theorem State.cellAddress_of_not_valid {s : State} {v : Int} (h : ¬ s.Valid v) :
    s.cellAddress v = .error .invalidProgram := if_neg h

theorem State.cellAddress_ok_iff {s : State} {v : Int} {a : Nat} :
    s.cellAddress v = .ok a ↔ v = a ∧ a < s.params.memLimit := by
  unfold State.cellAddress
  split
  · rename_i h
    simp only [Except.ok.injEq]
    constructor
    · rintro rfl
      exact ⟨by omega, by omega⟩
    · rintro ⟨rfl, -⟩
      simp
  · rename_i h
    simp only [reduceCtorEq, false_iff, not_and]
    intro hv
    subst hv
    omega

theorem State.cellAddress_error {s : State} {v : Int} {k : Fault} (h : s.cellAddress v = .error k) :
    k = .invalidProgram := by
  unfold State.cellAddress at h
  split at h <;> simp_all

/-- A Read resolves to a word or faults with `InvalidProgram` (R70, R71, R73). -/
theorem State.readOperand_error {s : State} {o : Operand} {k : Fault} (h : s.readOperand o = .error k) :
    k = .invalidProgram := by
  unfold State.readOperand at h
  split at h
  · simp at h
  · cases hc : s.cellAddress (s.target o) with
    | error e =>
      rw [hc] at h
      simp only [bind_error, Except.error.injEq] at h
      exact h ▸ State.cellAddress_error hc
    | ok a => simp [hc] at h

/-- A Write resolves to a valid address, and its mode is not Immediate (R72, R74, R75). -/
theorem State.writeAddress_ok {s : State} {o : Operand} {a : Nat} (h : s.writeAddress o = .ok a) :
    o.mode ≠ .immediate ∧ s.target o = a ∧ a < s.params.memLimit := by
  unfold State.writeAddress at h
  split at h
  · simp at h
  · rename_i hm
    exact ⟨fun hi => hm hi, State.cellAddress_ok_iff.1 h⟩

/-- A Write faults with `WriteToImmediate` exactly in Immediate mode, else with `InvalidProgram`. -/
theorem State.writeAddress_error {s : State} {o : Operand} {k : Fault} (h : s.writeAddress o = .error k) :
    (o.mode = .immediate ∧ k = .writeToImmediate) ∨ (o.mode ≠ .immediate ∧ k = .invalidProgram) := by
  unfold State.writeAddress at h
  split at h
  · rename_i hm
    simp only [Except.error.injEq] at h
    exact .inl ⟨hm, h.symm⟩
  · rename_i hm
    exact .inr ⟨fun hi => hm hi, State.cellAddress_error h⟩

/-- What Add, Mul, LessThan and Equal can do: fault with the first failing check, or store and advance. -/
theorem State.combineInto_cases {s t : State} {a b c : Operand} {f : Word → Word → Except Fault Word}
    (h : s.combineInto a b c f = .next t) :
    (∃ k, t = s.raise k ∧ (s.readOperand a = .error k ∨
        ∃ x, s.readOperand a = .ok x ∧ (s.readOperand b = .error k ∨
        ∃ y, s.readOperand b = .ok y ∧ (s.writeAddress c = .error k ∨
        ∃ d, s.writeAddress c = .ok d ∧ f x y = .error k)))) ∨
    (∃ x y d r, s.readOperand a = .ok x ∧ s.readOperand b = .ok y ∧ s.writeAddress c = .ok d ∧ f x y = .ok r ∧
      t = ((s.store d r).advance 4).answer .running) := by
  unfold State.combineInto at h
  cases ha : s.readOperand a with
  | error k => simp only [ha, bind_error, State.conclude_error, Host.Outcome.next.injEq] at h; exact .inl ⟨k, h.symm, .inl rfl⟩
  | ok x =>
    cases hb : s.readOperand b with
    | error k => simp only [ha, hb, bind_ok, bind_error, State.conclude_error, Host.Outcome.next.injEq] at h; exact .inl ⟨k, h.symm, .inr ⟨x, rfl, .inl rfl⟩⟩
    | ok y =>
      cases hc : s.writeAddress c with
      | error k => simp only [ha, hb, hc, bind_ok, bind_error, State.conclude_error, Host.Outcome.next.injEq] at h; exact .inl ⟨k, h.symm, .inr ⟨x, rfl, .inr ⟨y, rfl, .inl rfl⟩⟩⟩
      | ok d =>
        cases hf : f x y with
        | error k =>
          simp only [ha, hb, hc, hf, bind_ok, bind_error, State.conclude_error, Host.Outcome.next.injEq] at h
          exact .inl ⟨k, h.symm, .inr ⟨x, rfl, .inr ⟨y, rfl, .inr ⟨d, rfl, hf⟩⟩⟩⟩
        | ok r =>
          simp only [ha, hb, hc, hf, bind_ok, pure_ok, State.conclude_ok, Host.Outcome.next.injEq] at h
          exact .inr ⟨x, y, d, r, rfl, rfl, rfl, hf, h.symm⟩

/-- What the two jumps can do: fault with the first failing check, take the jump, or fall through. -/
theorem State.jumpWhen_cases {s t : State} {a b : Operand} {cond : Word → Bool} (h : s.jumpWhen a b cond = .next t) :
    (∃ k, t = s.raise k ∧ k = .invalidProgram) ∨
    (∃ x y d, s.readOperand a = .ok x ∧ s.readOperand b = .ok y ∧ cond x = true ∧ s.cellAddress y.toInt = .ok d ∧
      t = (s.setPc d).answer .running) ∨
    (∃ x y, s.readOperand a = .ok x ∧ s.readOperand b = .ok y ∧ cond x = false ∧ t = (s.advance 3).answer .running) := by
  unfold State.jumpWhen at h
  cases ha : s.readOperand a with
  | error k => simp only [ha, bind_error, State.conclude_error, Host.Outcome.next.injEq] at h; exact .inl ⟨k, h.symm, State.readOperand_error ha⟩
  | ok x =>
    cases hb : s.readOperand b with
    | error k => simp only [ha, hb, bind_ok, bind_error, State.conclude_error, Host.Outcome.next.injEq] at h; exact .inl ⟨k, h.symm, State.readOperand_error hb⟩
    | ok y =>
      cases hc : cond x with
      | false =>
        simp only [ha, hb, hc, bind_ok, Bool.false_eq_true, if_false, pure_ok, State.conclude_ok, Host.Outcome.next.injEq] at h
        exact .inr (.inr ⟨x, y, rfl, rfl, hc, h.symm⟩)
      | true =>
        cases hd : s.cellAddress y.toInt with
        | error k =>
          simp only [ha, hb, hc, hd, bind_ok, if_true, bind_error, State.conclude_error, Host.Outcome.next.injEq] at h
          exact .inl ⟨k, h.symm, State.cellAddress_error hd⟩
        | ok d =>
          simp only [ha, hb, hc, hd, bind_ok, if_true, pure_ok, State.conclude_ok, Host.Outcome.next.injEq] at h
          exact .inr (.inl ⟨x, y, d, rfl, rfl, hc, hd, h.symm⟩)

end Sys2Proof.Machine
end

