-- ==== Sys2Proof/Laws/Decode.lean ====
section
/-! SUPPORT. The digits of a canonical instruction word, and what the steps of the Decoder can answer. -/

namespace Sys2Proof

@[simp] theorem opcodeOf_number (op : Opcode) : opcodeOf op.number = some op := by cases op <;> rfl

theorem opcodeOf_eq_some {n : Nat} {op : Opcode} (h : opcodeOf n = some op) : op.number = n := by
  unfold opcodeOf at h
  split at h <;> first | (cases h; rfl) | exact absurd h (by simp)

theorem decodeMode_ok_iff {d : Nat} {m : Mode} : decodeMode d = .ok m ↔ d = m.digit := by
  unfold decodeMode
  split
  · cases m <;> simp [Mode.digit]
  · cases m <;> simp [Mode.digit]
  · cases m <;> simp [Mode.digit]
  · cases m <;> simp_all [Mode.digit]

@[simp] theorem decodeMode_digit (m : Mode) : decodeMode m.digit = .ok m := decodeMode_ok_iff.2 rfl

theorem decodeMode_of_large {d : Nat} (h : 2 < d) : decodeMode d = .error .invalidMode := by
  unfold decodeMode
  split <;> first | rfl | omega

theorem decodeMode_of_small {d : Nat} (h : d ≤ 2) : ∃ m, decodeMode d = .ok m := by
  obtain rfl | rfl | rfl : d = 0 ∨ d = 1 ∨ d = 2 := by omega
  all_goals exact ⟨_, rfl⟩

theorem Mode.digit_le (m : Mode) : m.digit ≤ 2 := by cases m <;> decide

theorem Opcode.number_lt (op : Opcode) : op.number < 100 := by cases op <;> decide

theorem headWord_lt (i : Instr) : headWord i < 100000 := by
  have := Opcode.number_lt i.opcode
  unfold headWord
  split
  · omega
  · rename_i a _
    have := a.mode.digit_le
    omega
  · rename_i a b _
    have := a.mode.digit_le
    have := b.mode.digit_le
    omega
  · rename_i a b c _ _
    have := a.mode.digit_le
    have := b.mode.digit_le
    have := c.mode.digit_le
    omega

/-- The low two digits of a canonical instruction word are the opcode (R46, R57). -/
theorem headWord_opcode (i : Instr) : headWord i % 100 = i.opcode.number := by
  have := Opcode.number_lt i.opcode
  unfold headWord
  split <;> omega

theorem ofNat_headWord_toNat (i : Instr) : (BitVec.ofNat 64 (headWord i)).toNat = headWord i := by
  have := headWord_lt i
  rw [BitVec.toNat_ofNat]
  exact Nat.mod_eq_of_lt (by omega)

theorem ofNat_headWord_toInt (i : Instr) : (BitVec.ofNat 64 (headWord i)).toInt = headWord i := by
  have h := headWord_lt i
  have := ofNat_headWord_toNat i
  rw [BitVec.toInt_eq_toNat_of_lt (by omega), this]

/-- The encoding has `len(op)` words (R45, R50). -/
theorem encode_length (i : Instr) : (encode i).length = i.opcode.len := by cases i <;> rfl

theorem decode_cons (w : Word) (ps : List Word) :
    decode (w :: ps) = if w.toInt < 0 then .error .invalidOperator else
      match opcodeOf (w.toNat % 100) with
      | none => .error .invalidOperator
      | some op => decodeParams op w.toNat ps := rfl

theorem decode_cons_neg {w : Word} (ps : List Word) (h : w.toInt < 0) : decode (w :: ps) = .error .invalidOperator := by
  rw [decode_cons, if_pos h]

theorem decode_cons_unrecognised {w : Word} (ps : List Word) (h : opcodeOf (w.toNat % 100) = none) :
    decode (w :: ps) = .error .invalidOperator := by
  rw [decode_cons, h]
  split <;> rfl

theorem decode_cons_recognised {w : Word} {op : Opcode} (ps : List Word) (h : 0 ≤ w.toInt)
    (ho : w.toNat % 100 = op.number) : decode (w :: ps) = decodeParams op w.toNat ps := by
  rw [decode_cons, if_neg (by omega), ho, opcodeOf_number]

/-- The instruction the parameters give has the opcode they were read for. -/
theorem decodeParams_opcode {op : Opcode} {raw : Nat} {ps : List Word} {i : Instr}
    (h : decodeParams op raw ps = .ok i) : i.opcode = op := by
  simp only [decodeParams, Machine.bind_eq_ok, Machine.pure_ok, Except.ok.injEq] at h
  obtain ⟨m1, -, m2, -, m3, -, w1, -, w2, -, w3, -, rfl⟩ := h
  cases op <;> rfl

theorem slotCell_used {op : Opcode} {ps : List Word} {i : Nat} (h : i ≤ op.nparams) (hi : 1 ≤ i) :
    slotCell op ps i = if i ≤ ps.length then .ok (ps.getD (i - 1) 0) else .error .missingOperand := by
  unfold slotCell
  rw [if_pos h]
  split
  · rename_i w hw
    obtain ⟨hl, -⟩ := List.getElem?_eq_some_iff.1 hw
    rw [if_pos (by omega)]
    simp [List.getD, hw]
  · rename_i hw
    rw [if_neg (by have := List.getElem?_eq_none_iff.1 hw; omega)]

/-- A decoded instruction and the words it was read from: the instruction word's digits and the parameter cells
(R46, R62). -/
theorem decode_inv {cells : List Word} {i : Instr} (h : decode cells = .ok i) :
    ∃ w ps, cells = w :: ps ∧ 0 ≤ w.toInt ∧ w.toNat % 100 = i.opcode.number ∧
      decodeParams i.opcode w.toNat ps = .ok i := by
  cases cells with
  | nil => simp [decode] at h
  | cons w ps =>
    rw [decode_cons] at h
    split at h
    · simp at h
    · rename_i hn
      split at h
      · simp at h
      · rename_i op ho
        obtain rfl := decodeParams_opcode h
        exact ⟨w, ps, rfl, by omega, (opcodeOf_eq_some ho).symm, h⟩

end Sys2Proof
end

