-- ==== Sys2Proof/Laws/Exec.lean ====
section
/-! SUPPORT. Once for each meaning, what it can do; and what a step can do. Every later proof about all instructions
rests on these. -/

namespace Sys2Proof.Machine

theorem execInp_cases {s t : State} {c : Operand} (h : execInp c s = .next t) :
    (∃ k, t = s.raise k ∧ s.writeAddress c = .error k) ∨
    (∃ d, s.writeAddress c = .ok d ∧ s.slot = none ∧ t = s.answer .awaitingInput) ∨
    (∃ d v, s.writeAddress c = .ok d ∧ s.slot = some v ∧
      t = (({ s.store d v with slot := none } : State).advance 2).answer .running) := by
  unfold execInp at h
  cases hc : s.writeAddress c with
  | error k => simp only [hc, bind_error, State.conclude_error, Host.Outcome.next.injEq] at h; exact .inl ⟨k, h.symm, rfl⟩
  | ok d =>
    cases hs : s.slot with
    | none => simp only [hc, hs, bind_ok, pure_ok, State.conclude_ok, Host.Outcome.next.injEq] at h; exact .inr (.inl ⟨d, rfl, rfl, h.symm⟩)
    | some v => simp only [hc, hs, bind_ok, pure_ok, State.conclude_ok, Host.Outcome.next.injEq] at h; exact .inr (.inr ⟨d, v, rfl, rfl, h.symm⟩)

theorem execOut_cases {s t : State} {a : Operand} (h : execOut a s = .next t) :
    (∃ k, t = s.raise k ∧ s.readOperand a = .error k) ∨
    (∃ v, s.readOperand a = .ok v ∧ t = (s.advance 2).answer (.output v)) := by
  unfold execOut at h
  cases ha : s.readOperand a with
  | error k => simp only [ha, bind_error, State.conclude_error, Host.Outcome.next.injEq] at h; exact .inl ⟨k, h.symm, rfl⟩
  | ok v => simp only [ha, bind_ok, pure_ok, State.conclude_ok, Host.Outcome.next.injEq] at h; exact .inr ⟨v, rfl, h.symm⟩

theorem execArb_cases {s t : State} {a : Operand} (h : execArb a s = .next t) :
    (∃ k, t = s.raise k ∧ (s.readOperand a = .error k ∨
      ∃ v, s.readOperand a = .ok v ∧ narrow (s.bp.toInt + v.toInt) = .error k)) ∨
    (∃ v r, s.readOperand a = .ok v ∧ narrow (s.bp.toInt + v.toInt) = .ok r ∧
      t = (({ s with bp := r } : State).advance 2).answer .running) := by
  unfold execArb at h
  cases ha : s.readOperand a with
  | error k => simp only [ha, bind_error, State.conclude_error, Host.Outcome.next.injEq] at h; exact .inl ⟨k, h.symm, .inl rfl⟩
  | ok v =>
    cases hr : narrow (s.bp.toInt + v.toInt) with
    | error k => simp only [ha, hr, bind_ok, bind_error, State.conclude_error, Host.Outcome.next.injEq] at h; exact .inl ⟨k, h.symm, .inr ⟨v, rfl, hr⟩⟩
    | ok r => simp only [ha, hr, bind_ok, pure_ok, State.conclude_ok, Host.Outcome.next.injEq] at h; exact .inr ⟨v, r, rfl, hr, h.symm⟩

@[simp] theorem execHlt_eq (s : State) : execHlt s = .next (({ s with run := .halted } : State).answer .halted) := rfl

/-- The end of an instruction is always a next state. -/
theorem State.conclude_next (s : State) (r : Except Fault State) : ∃ t, s.conclude r = .next t := by
  cases r <;> exact ⟨_, rfl⟩

/-- A step of an active instance: the Decoder's fault committed, or the decoded instruction's effect. -/
theorem step_active {s : State} (h : s.run = .active) :
    step s = match decode s.fetchCells with
      | .error e => .next (s.raise (faultOfDecode e))
      | .ok i => exec i s := by
  cases hd : decode s.fetchCells <;> simp only [step, h, hd]

theorem step_halted {s : State} (h : s.run = .halted) : step s = .fault .alreadyHalted := by simp only [step, h]

theorem step_faulted {s : State} {k : Fault} (h : s.run = .faulted k) : step s = .fault k := by simp only [step, h]

/-- What a step that answers a next state did. -/
theorem step_cases {s t : State} (h : step s = .next t) :
    s.run = .active ∧ ((∃ e, decode s.fetchCells = .error e ∧ t = s.raise (faultOfDecode e)) ∨
      ∃ i, decode s.fetchCells = .ok i ∧ exec i s = .next t) := by
  cases hr : s.run with
  | halted => rw [step_halted hr] at h; simp at h
  | faulted k => rw [step_faulted hr] at h; simp at h
  | active =>
    rw [step_active hr] at h
    split at h
    · rename_i e he
      simp only [Host.Outcome.next.injEq] at h
      exact ⟨rfl, .inl ⟨e, he, h.symm⟩⟩
    · rename_i i hi
      exact ⟨rfl, .inr ⟨i, hi, h⟩⟩

end Sys2Proof.Machine
end

