-- ==== Sys2Proof/Laws/Memory.lean ====
section
/-! SUPPORT. The laws of Memory: every operation keeps the canonical form and the bound on listed addresses, and what a
read gives after it. The read-after-write facts need no canonical form. -/

namespace Sys2Proof.Machine

@[simp] theorem Memory.read_nil (a : Nat) : Memory.read [] a = 0 := rfl

theorem Memory.read_erase_same (m : Memory) (a : Nat) : (m.erase a).read a = Memory.unlisted := by
  induction m with
  | nil => rfl
  | cons e m ih =>
    obtain ⟨k, x⟩ := e
    by_cases h : k = a <;> simp [Memory.erase, Memory.read, h, ih]

theorem Memory.read_erase_other (m : Memory) {a b : Nat} (h : b ≠ a) : (m.erase a).read b = m.read b := by
  induction m with
  | nil => rfl
  | cons e m ih =>
    obtain ⟨k, x⟩ := e
    by_cases hk : k = a
    · subst hk; simp [Memory.erase, Memory.read, ih, Ne.symm h]
    · simp [Memory.erase, Memory.read, hk, ih]

theorem Memory.mem_erase {m : Memory} {a : Nat} {e : Nat × Word} (h : e ∈ m.erase a) : e ∈ m ∧ e.1 ≠ a := by
  induction m with
  | nil => simp [Memory.erase] at h
  | cons f m ih =>
    obtain ⟨k, x⟩ := f
    by_cases hk : k = a
    · simp only [Memory.erase, hk, if_true] at h
      exact ⟨List.mem_cons_of_mem _ (ih h).1, (ih h).2⟩
    · simp only [Memory.erase, hk, if_false, List.mem_cons] at h
      rcases h with rfl | h
      · exact ⟨List.mem_cons_self, hk⟩
      · exact ⟨List.mem_cons_of_mem _ (ih h).1, (ih h).2⟩

theorem Memory.wfFrom_mono {lo lo' : Nat} {m : Memory} (hl : lo ≤ lo') (h : Memory.wfFrom lo' m = true) :
    Memory.wfFrom lo m = true := by
  cases m with
  | nil => rfl
  | cons e m =>
    simp only [Memory.wfFrom, Bool.and_eq_true, decide_eq_true_eq] at h ⊢
    exact ⟨⟨by omega, h.1.2⟩, h.2⟩

theorem Memory.wfFrom_erase {lo : Nat} {m : Memory} (a : Nat) (h : Memory.wfFrom lo m = true) :
    Memory.wfFrom lo (m.erase a) = true := by
  induction m generalizing lo with
  | nil => rfl
  | cons e m ih =>
    obtain ⟨k, x⟩ := e
    simp only [Memory.wfFrom, Bool.and_eq_true, decide_eq_true_eq] at h
    by_cases hk : k = a
    · simp only [Memory.erase, hk, if_true]
      exact ih (Memory.wfFrom_mono (by omega) h.2)
    · simp only [Memory.erase, hk, if_false, Memory.wfFrom, Bool.and_eq_true, decide_eq_true_eq]
      exact ⟨h.1, ih h.2⟩

theorem Memory.read_of_lt {lo a : Nat} {m : Memory} (h : Memory.wfFrom lo m = true) (ha : a < lo) : m.read a = 0 := by
  induction m generalizing lo with
  | nil => rfl
  | cons e m ih =>
    obtain ⟨k, x⟩ := e
    simp only [Memory.wfFrom, Bool.and_eq_true, decide_eq_true_eq] at h
    simp only [Memory.read, show k ≠ a by omega, if_false]
    exact ih h.2 (by omega)

theorem Memory.wfFrom_insert {lo a : Nat} {v : Word} {m : Memory} (h : Memory.wfFrom lo m = true) (hlo : lo ≤ a)
    (hv : v ≠ Memory.unlisted) (ha : ∀ e ∈ m, e.1 ≠ a) : Memory.wfFrom lo (m.insert a v) = true := by
  induction m generalizing lo with
  | nil => simp [Memory.insert, Memory.wfFrom, hlo, hv]
  | cons e m ih =>
    obtain ⟨k, x⟩ := e
    have hka : k ≠ a := ha (k, x) List.mem_cons_self
    simp only [Memory.wfFrom, Bool.and_eq_true, decide_eq_true_eq] at h
    by_cases hk : a < k
    · simp only [Memory.insert, hk, if_true, Memory.wfFrom, Bool.and_eq_true, decide_eq_true_eq]
      exact ⟨⟨hlo, by simpa using hv⟩, ⟨by omega, h.1.2⟩, h.2⟩
    · simp only [Memory.insert, hk, if_false, Memory.wfFrom, Bool.and_eq_true, decide_eq_true_eq]
      exact ⟨h.1, ih h.2 (by omega) (fun e he => ha e (List.mem_cons_of_mem _ he))⟩

theorem Memory.read_insert {m : Memory} {a : Nat} (v : Word) (ha : ∀ e ∈ m, e.1 ≠ a) (b : Nat) :
    (m.insert a v).read b = if b = a then v else m.read b := by
  induction m with
  | nil => by_cases h : b = a <;> simp [Memory.insert, Memory.read, h, eq_comm (a := a)]
  | cons e m ih =>
    obtain ⟨k, x⟩ := e
    have hka : k ≠ a := ha (k, x) List.mem_cons_self
    have ih := ih (fun e he => ha e (List.mem_cons_of_mem _ he))
    by_cases hk : a < k <;> by_cases hb : b = a
    · subst hb; simp [Memory.insert, Memory.read, hk]
    · simp [Memory.insert, Memory.read, hk, hb, Ne.symm hb]
    · subst hb; simp [Memory.insert, Memory.read, hk, ih, hka]
    · simp [Memory.insert, Memory.read, hk, hb, ih]

theorem Memory.mem_insert {m : Memory} {a : Nat} {v : Word} {e : Nat × Word} (h : e ∈ m.insert a v) :
    e = (a, v) ∨ e ∈ m := by
  induction m with
  | nil => simpa [Memory.insert] using h
  | cons f m ih =>
    obtain ⟨k, x⟩ := f
    by_cases hk : a < k
    · simpa [Memory.insert, hk] using h
    · simp only [Memory.insert, hk, if_false, List.mem_cons] at h ⊢
      rcases h with h | h
      · exact .inr (.inl h)
      · exact (ih h).imp id .inr

/-- Writing keeps every listed address valid where the written one is. -/
theorem Memory.write_bounded {m : Memory} {a limit : Nat} (v : Word) (h : ∀ e ∈ m, e.1 < limit) (ha : a < limit) :
    ∀ e ∈ m.write a v, e.1 < limit := by
  intro e he
  unfold Memory.write at he
  split at he
  · exact h e (Memory.mem_erase he).1
  · rcases Memory.mem_insert he with rfl | he
    · exact ha
    · exact h e (Memory.mem_erase he).1

/-- A cell written reads as the word written (20_memory.md R36 (b)). -/
theorem Memory.read_write_same (m : Memory) (a : Nat) (v : Word) : (m.write a v).read a = v := by
  unfold Memory.write
  split
  · rename_i h
    rw [Memory.read_erase_same, h]
  · rw [Memory.read_insert v (fun e he => (Memory.mem_erase he).2), if_pos rfl]

/-- A write changes only the cell written (20_memory.md R34). -/
theorem Memory.read_write_other (m : Memory) {a b : Nat} (v : Word) (h : b ≠ a) :
    (m.write a v).read b = m.read b := by
  unfold Memory.write
  split
  · exact Memory.read_erase_other m h
  · rw [Memory.read_insert v (fun e he => (Memory.mem_erase he).2), if_neg h, Memory.read_erase_other m h]

/-- Writing a cell keeps the canonical form. -/
theorem Memory.wf_write {m : Memory} (a : Nat) (v : Word) (h : m.wf = true) : (m.write a v).wf = true := by
  unfold Memory.write
  split
  · exact Memory.wfFrom_erase a h
  · exact Memory.wfFrom_insert (Memory.wfFrom_erase a h) (Nat.zero_le a) ‹_› (fun e he => (Memory.mem_erase he).2)

/-- Patching cells keeps the canonical form. -/
theorem Memory.wf_writeCells {m : Memory} (limit a : Nat) (ws : List Word) (h : m.wf = true) :
    (m.writeCells limit a ws).wf = true := by
  induction ws generalizing m a with
  | nil => exact h
  | cons w ws ih =>
    unfold Memory.writeCells
    split
    · exact ih _ (Memory.wf_write a w h)
    · exact h

/-- Patching cells lists no address beyond the valid ones. -/
theorem Memory.writeCells_bounded {m : Memory} {limit : Nat} (a : Nat) (ws : List Word) (h : ∀ e ∈ m, e.1 < limit) :
    ∀ e ∈ m.writeCells limit a ws, e.1 < limit := by
  induction ws generalizing m a with
  | nil => exact h
  | cons w ws ih =>
    unfold Memory.writeCells
    split
    · exact ih _ (Memory.write_bounded w h ‹_›)
    · exact h

/-- The memory after reset, nothing listed, is in its canonical form. -/
theorem Memory.wf_reset : State.reset.mem.wf = true := rfl

theorem Memory.wfFrom_load (a : Nat) (ws : List Word) : Memory.wfFrom a (Memory.load a ws) = true := by
  induction ws generalizing a with
  | nil => rfl
  | cons w ws ih =>
    by_cases h : w = Memory.unlisted
    · simpa [Memory.load, h] using Memory.wfFrom_mono (Nat.le_succ a) (ih (a + 1))
    · simp [Memory.load, h, Memory.wfFrom, ih]

/-- Loading a program gives a memory in its canonical form. -/
theorem Memory.wf_load (ws : List Word) : (Memory.load 0 ws).wf = true := Memory.wfFrom_load 0 ws

theorem Memory.load_bounded (a : Nat) (ws : List Word) : ∀ e ∈ Memory.load a ws, e.1 < a + ws.length := by
  induction ws generalizing a with
  | nil => simp [Memory.load]
  | cons w ws ih =>
    intro e he
    simp only [List.length_cons]
    by_cases h : w = Memory.unlisted
    · have := ih (a + 1) e (by simpa [Memory.load, h] using he)
      omega
    · simp only [Memory.load, h, if_false, List.mem_cons] at he
      rcases he with rfl | he
      · simp
      · have := ih (a + 1) e he
        omega

/-- What a loaded program reads as: its words from `a` on, 0 elsewhere (10_state.md R24). -/
theorem Memory.read_load (a : Nat) (ws : List Word) (b : Nat) :
    (Memory.load a ws).read b = if a ≤ b then ws.getD (b - a) 0 else 0 := by
  induction ws generalizing a with
  | nil => simp [Memory.load]
  | cons w ws ih =>
    unfold Memory.load
    by_cases hb : b = a
    · subst hb
      split
      · rename_i h
        rw [ih, if_neg (by omega), if_pos (le_refl b)]
        simpa [Memory.unlisted] using h.symm
      · simp [Memory.read]
    · have shift : (if a + 1 ≤ b then ws.getD (b - (a + 1)) 0 else 0) =
          if a ≤ b then (w :: ws).getD (b - a) 0 else 0 := by
        by_cases hc : a + 1 ≤ b
        · obtain ⟨j, hj⟩ : ∃ j, b - a = j + 1 := ⟨b - a - 1, by omega⟩
          rw [if_pos hc, if_pos (by omega), hj, show b - (a + 1) = j by omega]
          simp [List.getD]
        · rw [if_neg hc, if_neg (by omega)]
      split
      · rw [ih, shift]
      · simp only [Memory.read]
        rw [if_neg (by omega), ih, shift]

/-- What patched cells read as. -/
theorem Memory.read_writeCells (m : Memory) (limit a : Nat) (ws : List Word) (b : Nat) :
    (m.writeCells limit a ws).read b =
      if a ≤ b ∧ b < limit ∧ b < a + ws.length then ws.getD (b - a) 0 else m.read b := by
  induction ws generalizing m a with
  | nil =>
    rw [if_neg (by simp; omega)]
    rfl
  | cons w ws ih =>
    unfold Memory.writeCells
    split
    · rw [ih]
      by_cases hb : b = a
      · subst hb
        rw [if_neg (by omega), Memory.read_write_same, if_pos (by simp; omega)]
        simp
      · simp only [List.length_cons]
        by_cases hc : a + 1 ≤ b ∧ b < limit ∧ b < a + 1 + ws.length
        · obtain ⟨j, hj⟩ : ∃ j, b - a = j + 1 := ⟨b - a - 1, by omega⟩
          rw [if_pos hc, if_pos (by omega), hj, show b - (a + 1) = j by omega]
          simp [List.getD]
        · rw [if_neg hc, if_neg (by omega), Memory.read_write_other _ _ hb]
    · rw [if_neg (by omega)]

@[simp] theorem Memory.cellsFrom_zero (m : Memory) (limit a : Nat) : m.cellsFrom limit a 0 = [] := rfl

theorem Memory.cellsFrom_length_le (m : Memory) (limit a n : Nat) :
    (m.cellsFrom limit a n).length ≤ n ∧ (a ≤ limit → a + (m.cellsFrom limit a n).length ≤ limit) := by
  induction n generalizing a with
  | zero => simp
  | succ n ih =>
    unfold Memory.cellsFrom
    split
    · have := ih (a + 1)
      simp only [List.length_cons]
      omega
    · simp

/-- Cell `k` of the fetched cells is the cell at `a + k`, as far as it is valid. -/
theorem Memory.getElem?_cellsFrom (m : Memory) (limit a n k : Nat) :
    (m.cellsFrom limit a n)[k]? = if k < n ∧ a + k < limit then some (m.read (a + k)) else none := by
  induction n generalizing a k with
  | zero => simp
  | succ n ih =>
    unfold Memory.cellsFrom
    split
    · cases k with
      | zero => simp_all
      | succ k =>
        rw [List.getElem?_cons_succ, ih]
        simp only [show a + 1 + k = a + (k + 1) by omega, Nat.add_lt_add_iff_right]
    · rw [List.getElem?_nil, if_neg (by omega)]

end Sys2Proof.Machine
end

