-- ==== Sys2Proof/Laws/HostCalls.lean ====
section
/-! SUPPORT. What construction and sequences of host calls give. -/

namespace Sys2Proof.Machine

/-- A word in range keeps its value. -/
theorem toInt_ofInt_of_inRange {v : Int} (h : InRange v) : (BitVec.ofInt 64 v).toInt = v :=
  narrow_ok_iff.1 (by simp [narrow, h])

/-- A construction that succeeds is the construction state of a program in range. -/
theorem newInstance_ok {limit : Nat} {prog : List Int} {s : State} (h : newInstance limit prog = .ok s) :
    (∀ v ∈ prog, InRange v) ∧ s = State.construct ⟨limit, prog.map (BitVec.ofInt 64)⟩ := by
  unfold newInstance at h
  split at h
  · simp only [Except.ok.injEq] at h
    exact ⟨‹_›, h.symm⟩
  · simp at h

/-- State.reset is the construction state of the empty program with the greatest MEM_LIMIT. -/
theorem reset_eq_construct : State.reset = State.construct ⟨Config.maxMemLimit, []⟩ := rfl

@[simp] theorem State.calls_nil (s : State) : s.calls [] = s := rfl
@[simp] theorem State.calls_cons (s : State) (c : HostCall) (cs : List HostCall) :
    s.calls (c :: cs) = (s.call c).calls cs := rfl

theorem State.calls_append (s : State) (cs cs' : List HostCall) : s.calls (cs ++ cs') = (s.calls cs).calls cs' := by
  induction cs generalizing s with
  | nil => rfl
  | cons c cs ih => exact ih _

/-- Steps that change nothing change nothing together. -/
theorem State.calls_step_of_fixed {s : State} (h : s.stepCall.2 = s) (n : Nat) :
    s.calls (List.replicate n .step) = s := by
  induction n with
  | zero => rfl
  | succ n ih =>
    rw [List.replicate_succ, State.calls_cons, show s.call .step = s from h, ih]

theorem State.stepCall_next {s t : State} (h : step s = .next t) : s.stepCall = (t.ret, t) := by
  simp only [State.stepCall, h]

theorem State.stepCall_fault {s : State} {k : Fault} (h : step s = .fault k) : s.stepCall = (.failed k, s) := by
  simp only [State.stepCall, h]

/-- A run result with outputs emitted before it. -/
def RunResult.after (p : List Word) (r : RunResult) : RunResult := { r with outs := p ++ r.outs }

@[simp] theorem RunResult.after_reason (p : List Word) (r : RunResult) : (r.after p).reason = r.reason := rfl
@[simp] theorem RunResult.after_outs (p : List Word) (r : RunResult) : (r.after p).outs = p ++ r.outs := rfl
@[simp] theorem RunResult.after_final (p : List Word) (r : RunResult) : (r.after p).final = r.final := rfl

/-- The outputs emitted before a run stand before its own and change nothing else. -/
theorem runFor_outs (n : Nat) (s : State) (inputs p q : List Word) :
    runFor n s inputs (p ++ q) = (runFor n s inputs q).map (RunResult.after p) := by
  induction n generalizing s inputs q with
  | zero => rfl
  | succ n ih =>
    unfold runFor
    split <;> try exact ih ..
    · rw [List.append_assoc, ih]
    · split
      · rfl
      · exact ih ..
    all_goals rfl

end Sys2Proof.Machine
end

