-- ==== Sys2Proof/Laws/PerInstr.lean ====
section
/-! SUPPORT. Facts about each instruction as syntax, one lemma per constructor: the length of its encoding (R45, R50),
and the mode digits of its canonical instruction word (R46, R57). -/

namespace Sys2Proof.Laws.EncodeLength

/-- The encoding has `len(op)` words. -/
def Statement (i : Instr) : Prop := (encode i).length = i.opcode.len

theorem add (a b c : Operand) : Statement (.add a b c) := rfl
theorem mul (a b c : Operand) : Statement (.mul a b c) := rfl
theorem inp (c : Operand) : Statement (.inp c) := rfl
theorem out (a : Operand) : Statement (.out a) := rfl
theorem jnz (a b : Operand) : Statement (.jnz a b) := rfl
theorem jz (a b : Operand) : Statement (.jz a b) := rfl
theorem lt (a b c : Operand) : Statement (.lt a b c) := rfl
theorem eq (a b c : Operand) : Statement (.eq a b c) := rfl
theorem arb (a : Operand) : Statement (.arb a) := rfl
theorem hlt : Statement .hlt := rfl

end Sys2Proof.Laws.EncodeLength

namespace Sys2Proof.Laws.ModeDigits

/-- Digit `k + 2` of the canonical instruction word is the mode digit of parameter `k + 1`. -/
def Statement (i : Instr) : Prop :=
  ∀ k o, i.operands[k]? = some o → digit (k + 2) (headWord i) = o.mode.digit

theorem none {i : Instr} (h : i.operands = []) : Statement i := by
  intro k o ho
  simp [h] at ho

theorem one {i : Instr} {a : Operand} (h : i.operands = [a]) : Statement i := by
  intro k o ho
  have := i.opcode.number_lt
  have := a.mode.digit_le
  rw [h] at ho
  rcases k with _ | k <;> simp at ho
  subst ho
  simp only [headWord, h, digit]
  omega

theorem two {i : Instr} {a b : Operand} (h : i.operands = [a, b]) : Statement i := by
  intro k o ho
  have := i.opcode.number_lt
  have := a.mode.digit_le
  have := b.mode.digit_le
  rw [h] at ho
  rcases k with _ | _ | k <;> simp at ho <;> subst ho <;> simp only [headWord, h, digit] <;> omega

theorem three {i : Instr} {a b c : Operand} (h : i.operands = [a, b, c]) : Statement i := by
  intro k o ho
  have := i.opcode.number_lt
  have := a.mode.digit_le
  have := b.mode.digit_le
  have := c.mode.digit_le
  rw [h] at ho
  rcases k with _ | _ | _ | k <;> simp at ho <;> subst ho <;> simp only [headWord, h, digit] <;> omega

theorem add (a b c : Operand) : Statement (.add a b c) := three rfl
theorem mul (a b c : Operand) : Statement (.mul a b c) := three rfl
theorem inp (c : Operand) : Statement (.inp c) := one rfl
theorem out (a : Operand) : Statement (.out a) := one rfl
theorem jnz (a b : Operand) : Statement (.jnz a b) := two rfl
theorem jz (a b : Operand) : Statement (.jz a b) := two rfl
theorem lt (a b c : Operand) : Statement (.lt a b c) := three rfl
theorem eq (a b c : Operand) : Statement (.eq a b c) := three rfl
theorem arb (a : Operand) : Statement (.arb a) := one rfl
theorem hlt : Statement .hlt := none rfl

end Sys2Proof.Laws.ModeDigits
end

