-- ==== Sys2Proof/Tests/Slice0.lean ====
section
/-! SUPPORT. Tests of one decode or one step each, their results taken from spec/95_test_vectors.md (the vector's name
stands at the test) or from the rule named, and for every statement with hypotheses a witness that meets them. -/

namespace Sys2Proof.Tests

open Sys2Proof.Machine

/-! ### Helpers -/

/-- An instance of a program at address 0, constructed with a given MEM_LIMIT. -/
def bootWith (limit : Nat) (prog : List Int) : State := State.construct ⟨limit, prog.map (BitVec.ofInt 64)⟩

/-- An instance of a program with a few thousand cells. -/
def boot (prog : List Int) : State := bootWith 4000 prog

/-- Cell `a`, `pc` and the result after one step. -/
def after (s : State) (a : Nat) : Option (Int × Nat × Answer) :=
  match step s with
  | .next t => some ((t.mem.read a).toInt, t.pc, t.ret)
  | _ => none

/-- Position, Immediate and Relative operands. -/
def pos (n : Int) : Operand := ⟨.position, BitVec.ofInt 64 n⟩
def imm (n : Int) : Operand := ⟨.immediate, BitVec.ofInt 64 n⟩
def rel (n : Int) : Operand := ⟨.relative, BitVec.ofInt 64 n⟩

/-! ### WellFormed refuses an Immediate destination (R54 (b)) -/

theorem test_wf_refuses_add : (Instr.add (imm 1) (imm 1) (imm 1)).wellFormed = false := by decide
theorem test_wf_refuses_mul : (Instr.mul (pos 1) (pos 1) (imm 1)).wellFormed = false := by decide
theorem test_wf_refuses_inp : (Instr.inp (imm 5)).wellFormed = false := by decide
theorem test_wf_refuses_lt : (Instr.lt (imm 1) (imm 2) (imm 3)).wellFormed = false := by decide
theorem test_wf_refuses_eq : (Instr.eq (rel 1) (rel 2) (imm 3)).wellFormed = false := by decide
theorem test_wf_accepts_add : (Instr.add (imm 1) (rel 1) (rel 1)).wellFormed = true := by decide

/-! ### Decoding: a word of every constructor from its digit pattern (R48, R57, opcode_table.json) -/

theorem test_decode_add : decode [21001, 7, 8, 9] = .ok (.add ⟨.position, 7⟩ ⟨.immediate, 8⟩ ⟨.relative, 9⟩) := rfl
theorem test_decode_mul : decode [1002, 4, 3, 4] = .ok (.mul ⟨.position, 4⟩ ⟨.immediate, 3⟩ ⟨.position, 4⟩) := rfl
theorem test_decode_inp : decode [203, -1] = .ok (.inp ⟨.relative, -1⟩) := rfl
theorem test_decode_out : decode [104, 999] = .ok (.out ⟨.immediate, 999⟩) := rfl
theorem test_decode_jnz : decode [1005, 20, 22] = .ok (.jnz ⟨.position, 20⟩ ⟨.immediate, 22⟩) := rfl
theorem test_decode_jz : decode [2106, 0, 36] = .ok (.jz ⟨.immediate, 0⟩ ⟨.relative, 36⟩) := rfl
theorem test_decode_lt : decode [107, 8, 21, 20] = .ok (.lt ⟨.immediate, 8⟩ ⟨.position, 21⟩ ⟨.position, 20⟩) := rfl
theorem test_decode_eq : decode [21208, 1, 2, 3] = .ok (.eq ⟨.relative, 1⟩ ⟨.immediate, 2⟩ ⟨.relative, 3⟩) := rfl
theorem test_decode_arb : decode [209, 3] = .ok (.arb ⟨.relative, 3⟩) := rfl
theorem test_decode_hlt : decode [399] = .ok .hlt := rfl
/-- D4: a negative word is never Halt. -/
theorem test_decode_negative : decode [-99] = .error .invalidOperator := rfl
/-- D5 and D12: a used mode digit 3; a parameter cell beyond the tape. -/
theorem test_decode_invalid_mode : decode [301, 0, 0, 0] = .error .invalidMode := rfl
theorem test_decode_missing_operand : decode [1, 0, 0] = .error .missingOperand := rfl
/-- R57: the canonical encoding of `add #2, rb-1, 5`. -/
theorem test_encode_add : encode (.add (imm 2) (rel (-1)) (pos 5)) = [2101, 2, -1, 5] := by decide
/-- The numbering of an opcode-table word (log entry 6). -/
theorem test_table_word : decodeTableWord 8 99 = some .hlt := rfl
theorem test_fetch_word_runs : after (State.reset.withFetchWord 128 (104 + 42 * 2 ^ 64)) 1 =
    some (42, 2, .status (.output 42)) := by decide

/-! ### One step of each instruction -/

/-- A5: the destination is both sources. -/
theorem test_add_reads_before_write : after (boot [1, 5, 5, 5, 99, 21]) 5 = some (42, 4, .status .running) := by decide
/-- A2. -/
theorem test_add_overflow : after (boot [1101, 9223372036854775807, 1, 5, 99, 0]) 5 =
    some (0, 0, .failed .arithmeticOverflow) := by decide
/-- M5, the largest square in range, and M1. -/
theorem test_mul_wide : after (boot [1102, 3037000499, 3037000499, 5, 99, 0]) 5 =
    some (9223372030926249001, 4, .status .running) := by decide
theorem test_mul_overflow : after (boot [1102, -9223372036854775808, -1, 5, 99, 0]) 5 =
    some (0, 0, .failed .arithmeticOverflow) := by decide
/-- I5 and I3. -/
theorem test_inp_relative : after { boot [203, -1, 99] with bp := 3, slot := some 7 } 2 =
    some (7, 2, .status .running) := by decide
theorem test_inp_checks_operand_first : after (boot [1103, 5, 99]) 5 = some (0, 0, .failed .writeToImmediate) := by
  decide
/-- O3 and O4. -/
theorem test_out_relative : after { boot [204, 2, 99, 0, 0, 55] with bp := 3 } 5 =
    some (55, 2, .status (.output 55)) := by decide
theorem test_out_negative_address : after (boot [4, -5]) 0 = some (4, 0, .failed .invalidProgram) := by decide
/-- J6 and J3. -/
theorem test_jnz_indirect : after (boot [5, 4, 5, 99, 1, 0]) 0 = some (5, 0, .status .running) := by decide
theorem test_jnz_invalid_target : after (boot [1105, -1, -1, 99]) 0 = some (1105, 0, .failed .invalidProgram) := by
  decide
/-- J5 (the target is not checked) and J4. -/
theorem test_jz_not_taken : after (boot [1106, 1, -5, 99]) 0 = some (1106, 3, .status .running) := by decide
theorem test_jz_invalid_target : after (boot [1106, 0, -5, 99]) 0 = some (1106, 0, .failed .invalidProgram) := by
  decide
/-- C2 (signed) and C3. -/
theorem test_lt_signed : after (boot [1107, -9223372036854775808, 9223372036854775807, 5, 99, 9]) 5 =
    some (1, 4, .status .running) := by decide
theorem test_lt_equal : after (boot [1107, 4, 4, 5, 99, 9]) 5 = some (0, 4, .status .running) := by decide
/-- C7 and C6. -/
theorem test_eq_own_cell : after (boot [8, 1, 1, 1, 99]) 1 = some (1, 4, .status .running) := by decide
theorem test_eq_different : after (boot [1108, -1, 1, 5, 99, 9]) 5 = some (0, 4, .status .running) := by decide
/-- B2: the operand is read with the old `bp`. -/
theorem test_arb_old_base :
    (step { boot [209, 3, 99, 0, 0, 7] with bp := 2 } =
      .next { boot [209, 3, 99, 0, 0, 7] with bp := 9, pc := 2, ret := .status .running }) := rfl
/-- B7: a pending value stays, `pc` stays. -/
theorem test_hlt_keeps_slot : step { boot [99] with slot := some 4 } =
    .next { boot [99] with slot := some 4, run := .halted, ret := .status .halted } := rfl
/-- D15: a fetch at MEM_LIMIT. -/
theorem test_fetch_bound : after { bootWith 2 [4, 0] with pc := 2 } 0 = some (4, 2, .failed .invalidProgram) := by
  decide
/-- S13: the exact sum does not wrap. -/
theorem test_relative_no_wrap :
    ({ bootWith 9223372036854775808 [] with bp := 9223372036854775807 } : State).resolve (rel 9223372036854775807) .read
      = .error .invalidProgram := by decide

/-! ### Host calls -/

/-- L1.7: a second value before the first is consumed. -/
theorem test_insert_overrun : (({ boot [3, 0, 99] with slot := some 5 } : State).insertInput 6) = .error .inputOverrun := rfl
/-- F5 and F2. -/
theorem test_get_negative : (boot [99]).hostGet (-1) = .error .addressOutOfRange := by decide
theorem test_reset_refused : ({ boot [0] with run := .faulted .invalidOperator } : State).hostReset = .error .resetRefused := rfl
/-- `run` on a Halt (L1.8). -/
theorem test_run_halt : (runFor 1 (boot [99]) [] []).map RunResult.reason = some .halted := by decide

/-! ### Witnesses: states and operands that meet the hypotheses of the statements -/

theorem witness_UnusedModeDigitsAreIgnored :
    (0 : Int) ≤ (104 : Word).toInt ∧ (0 : Int) ≤ (90104 : Word).toInt ∧ (104 : Word).toNat % 100 = Opcode.out.number ∧
    (90104 : Word).toNat % 100 = Opcode.out.number ∧
    ∀ k, k < Opcode.out.nparams → digit (k + 2) (104 : Word).toNat = digit (k + 2) (90104 : Word).toNat := by decide

theorem witness_IllegalWordsRaiseInvalidOperator :
    (-1 : Word).toInt < 0 ∧ (300 : Word).toNat % 100 = 0 ∧ (10 : Word).toNat % 100 = 10 ∧ (98 : Word).toNat % 100 = 98 ∧
    (boot [0]).run = .active ∧ (boot [0]).pc < (boot [0]).params.memLimit ∧ (boot [0]).mem.read (boot [0]).pc = 0 := by
  decide

theorem witness_WellFormednessDecidesImmediateWrites :
    (∃ t, exec (.inp (pos 5)) (boot []) = .next t) ∧ (Instr.inp (pos 5)).wellFormed = true ∧
    (∃ t, exec (.inp (imm 5)) (boot []) = .next t) ∧ (Instr.inp (imm 5)).wellFormed = false :=
  ⟨⟨_, rfl⟩, rfl, ⟨_, rfl⟩, rfl⟩

theorem witness_StepRunsTheDecodedInstruction :
    (boot [104, 8]).run = .active ∧ decode (boot [104, 8]).fetchCells = .ok (.out (imm 8)) := ⟨rfl, rfl⟩

theorem witness_StepRunsTheEncodedInstructionInMemory :
    (bootWith 2 [104, 8]).run = .active ∧
    (bootWith 2 [104, 8]).pc + (encode (.out (imm 8))).length ≤ (bootWith 2 [104, 8]).params.memLimit ∧
    ∀ k w, (encode (.out (imm 8)))[k]? = some w → (bootWith 2 [104, 8]).mem.read ((bootWith 2 [104, 8]).pc + k) = w := by
  refine ⟨rfl, by decide, fun k w h => ?_⟩
  rcases k with _ | _ | k
  · cases h; rfl
  · cases h; rfl
  · exact absurd h (by simp [encode, Instr.operands])

theorem witness_StepRunsTheTableWord :
    (bootWith 4 []).run = .active ∧ (bootWith 4 []).pc + 4 ≤ (bootWith 4 []).params.memLimit ∧
    decodeTableWord 8 1 = some (.add (pos 0) (pos 0) (pos 0)) := ⟨rfl, by decide, rfl⟩

theorem witness_InvalidFetchFaults :
    ({ bootWith 2 [4, 0] with pc := 2 } : State).run = .active ∧
    ¬ ({ bootWith 2 [4, 0] with pc := 2 } : State).Valid ({ bootWith 2 [4, 0] with pc := 2 } : State).pc ∧
    (∃ t, exec (.jnz (imm 1) (imm 1)) (bootWith 2 [4, 0]) = .next t) ∧
    (∃ t, exec (.jz (imm 1) (imm 1)) (bootWith 2 [4, 0]) = .next t) :=
  ⟨rfl, by decide, ⟨_, rfl⟩, ⟨_, rfl⟩⟩

theorem witness_StepAfterHaltFails : ({ boot [99] with run := .halted } : State).run = .halted := rfl

theorem witness_StepAfterFaultFailsAgain :
    ({ boot [0] with run := .faulted .invalidOperator } : State).run = .faulted .invalidOperator := rfl

theorem witness_FaultsArePreciseAndSticky : ∃ t, step (boot [0]) = .next t ∧ t.ret = .failed .invalidOperator :=
  ⟨_, rfl, rfl⟩

theorem witness_ActiveStepHasANextState : (boot [301]).run = .active := rfl

theorem witness_PcUpdatePerInstruction :
    (∃ t, exec (.jnz (imm 1) (imm 7)) (boot []) = .next t ∧ ∀ k, t.ret ≠ .failed k) ∧
    (∃ t, exec (.jnz (imm 1) (imm (-1))) (boot []) = .next t ∧ ∃ k, t.ret = .failed k) :=
  ⟨⟨_, rfl, fun _ h => by cases h⟩, ⟨_, rfl, _, rfl⟩⟩

theorem witness_StatusPerInstruction :
    ∃ t, exec (.inp (pos 7)) (boot []) = .next t ∧ ∀ k, t.ret ≠ .failed k := ⟨_, rfl, fun _ h => by cases h⟩

theorem witness_FaultKindsPerInstruction :
    (∃ t, exec (.arb (imm 1)) { boot [] with bp := 9223372036854775807 } = .next t ∧ t.ret = .failed .arithmeticOverflow) ∧
    (∃ t, exec (.eq (imm 1) (imm 1) (imm 1)) (boot []) = .next t ∧ t.ret = .failed .writeToImmediate) ∧
    (∃ t, exec (.out (pos 4000)) (boot []) = .next t ∧ t.ret = .failed .invalidProgram) :=
  ⟨⟨_, rfl, rfl⟩, ⟨_, rfl, rfl⟩, ⟨_, rfl, rfl⟩⟩

theorem witness_StepDependsOnTheSpecStateAlone :
    let s := boot [104, 8]
    let s' : State := { s with params := ⟨4000, []⟩, ret := .status .awaitingInput }
    s ≠ s' ∧ s.params.memLimit = s'.params.memLimit ∧ s.mem = s'.mem ∧ s.pc = s'.pc ∧ s.bp = s'.bp ∧
      s.slot = s'.slot ∧ s.run = s'.run := ⟨by decide, rfl, rfl, rfl, rfl, rfl, rfl⟩

theorem witness_StepNeverReadsTheProgram :
    (∃ t, step (boot [104, 8]) = .next t) ∧ (∃ k, step { boot [99] with run := .halted } = .fault k) :=
  ⟨⟨_, rfl⟩, ⟨_, rfl⟩⟩

theorem witness_CanonicalMemoriesThatReadAlikeAreEqual :
    Memory.wf [(0, 5), (7, -1)] = true ∧ Memory.wf ([(0, 5), (7, -1), (9, 3)] : Memory).dropLast = true ∧
    ∀ a, Memory.read [(0, 5), (7, -1)] a = Memory.read ([(0, 5), (7, -1), (9, 3)] : Memory).dropLast a :=
  ⟨rfl, rfl, fun _ => rfl⟩

theorem witness_OnlyTheDestinationCellChanges :
    (∃ t, exec (.add (imm 1) (imm 2) (pos 3999)) (boot []) = .next t) ∧ (boot []).writeAddress (pos 3999) = .ok 3999 ∧
    (∃ t, exec (.add (imm 1) (imm 2) (pos 4000)) (boot []) = .next t) ∧
    (boot []).writeAddress (pos 4000) = .error .invalidProgram ∧
    (∃ t, exec (.out (imm 1)) (boot []) = .next t) ∧ (Instr.out (imm 1)).destination = none :=
  ⟨⟨_, rfl⟩, rfl, ⟨_, rfl⟩, rfl, ⟨_, rfl⟩, rfl⟩

theorem witness_StoredWordIsFetched : (3 : Nat) = (bootWith 4 []).pc + 3 ∧ 3 < (bootWith 4 []).params.memLimit := by decide

theorem witness_ResolvePosition :
    (bootWith 10 []).Valid (0 : Word).toInt ∧ (bootWith 10 []).Valid (9 : Word).toInt ∧
    (∀ v, ((9 : Word).toInt.toNat, v) ∉ (bootWith 10 []).mem) ∧ (-1 : Word).toInt < 0 ∧
    ((bootWith 10 []).params.memLimit : Int) ≤ (10 : Word).toInt ∧ 9 < (bootWith 10 []).params.memLimit ∧
    (bootWith 10 [0, 0, 0, 0, 0, 0, 0, 0, 0, 8]).mem.read 9 = 8 := by
  refine ⟨by decide, by decide, fun v h => ?_, by decide, by decide, by decide, by decide⟩
  cases h

theorem witness_ImmediateDestinationFaults :
    (boot []).readOperand (pos 3) = .ok 0 ∧ (boot []).readOperand (imm 3) = .ok 3 := ⟨rfl, rfl⟩

theorem witness_ResolveRelative :
    ({ bootWith 10 [] with bp := 12 } : State).Valid ((12 : Word).toInt + (-3 : Word).toInt) ∧
    (12 : Word).toInt + (-13 : Word).toInt < 0 ∧ (10 : Int) ≤ (12 : Word).toInt + (-2 : Word).toInt ∧
    ({ boot [109] with bp := 1 } : State).bp = 1 ∧ 0 < ({ boot [109] with bp := 1 } : State).params.memLimit ∧
    ({ bootWith 1994 [] with bp := 2000 } : State).bp = 2000 ∧
    1993 < ({ bootWith 1994 [] with bp := 2000 } : State).params.memLimit := by decide

theorem witness_FirstFailingParameterIsReported :
    (Instr.add (imm 1) (pos 2) (imm 3)).operands[2]? = some (imm 3) ∧
    (Instr.add (imm 1) (pos 2) (imm 3)).opcode.intents[2]? = some .write ∧
    (boot []).resolve (imm 3) .write = .error .writeToImmediate ∧
    ∀ j' o' it', j' < 2 → (Instr.add (imm 1) (pos 2) (imm 3)).operands[j']? = some o' →
      (Instr.add (imm 1) (pos 2) (imm 3)).opcode.intents[j']? = some it' → ∃ r, (boot []).resolve o' it' = .ok r := by
  refine ⟨rfl, rfl, rfl, fun j' o' it' hj ho hi => ?_⟩
  rcases j' with _ | _ | j'
  · cases ho; cases hi; exact ⟨_, rfl⟩
  · cases ho; cases hi; exact ⟨_, rfl⟩
  · omega

theorem witness_AddStoresTheSum :
    (boot []).readOperand (imm 9223372036854775807) = .ok 9223372036854775807 ∧ (boot []).readOperand (pos 0) = .ok 0 ∧
    (boot []).writeAddress (pos 3999) = .ok 3999 ∧
    InRange ((9223372036854775807 : Word).toInt + (0 : Word).toInt) := ⟨rfl, rfl, rfl, by decide⟩

theorem witness_MulStoresTheProduct :
    (boot []).readOperand (imm (-3)) = .ok (-3) ∧ (boot []).readOperand (rel 0) = .ok 0 ∧
    (boot []).writeAddress (rel 0) = .ok 0 ∧ InRange ((-3 : Word).toInt * (0 : Word).toInt) := ⟨rfl, rfl, rfl, by decide⟩

theorem witness_OutOfRangeResultsRaiseOverflow :
    (boot []).readOperand (imm (-9223372036854775808)) = .ok (-9223372036854775808) ∧
    (boot []).readOperand (imm (-1)) = .ok (-1) ∧ (boot []).writeAddress (pos 5) = .ok 5 ∧
    ¬ InRange ((-9223372036854775808 : Word).toInt + (-1 : Word).toInt) ∧
    ¬ InRange ((-9223372036854775808 : Word).toInt * (-1 : Word).toInt) ∧
    ¬ InRange (({ boot [] with bp := -9223372036854775808 } : State).bp.toInt + (-1 : Word).toInt) :=
  ⟨rfl, rfl, rfl, by decide, by decide, by decide⟩

theorem witness_ComparisonsStore :
    (boot []).readOperand (imm (-1)) = .ok (-1) ∧ (boot []).readOperand (imm 0) = .ok 0 ∧
    (boot []).writeAddress (pos 5) = .ok 5 ∧ (-1 : Word).toInt < (0 : Word).toInt ∧
    (0 : Word).toInt ≤ (0 : Word).toInt ∧ (-1 : Word) ≠ 0 := ⟨rfl, rfl, rfl, by decide, by decide, by decide⟩

theorem witness_InputStoresThePendingValue :
    ({ boot [] with slot := some 42 } : State).writeAddress (pos 5) = .ok 5 ∧
    ({ boot [] with slot := some 42 } : State).slot = some 42 := ⟨rfl, rfl⟩

theorem witness_StalledInputIsIdempotent :
    (boot [3, 0, 99]).run = .active ∧ decode (boot [3, 0, 99]).fetchCells = .ok (.inp (pos 0)) ∧
    (boot [3, 0, 99]).writeAddress (pos 0) = .ok 0 ∧ (boot [3, 0, 99]).slot = none := ⟨rfl, rfl, rfl, rfl⟩

theorem witness_OutputReturnsTheValue : (boot [4, 3, 99, 77]).readOperand (pos 3) = .ok 77 := rfl

theorem witness_JumpsTakeTheTarget :
    (boot []).readOperand (imm (-1)) = .ok (-1) ∧ (boot []).readOperand (imm 3999) = .ok 3999 ∧
    (boot []).readOperand (imm 0) = .ok 0 ∧ (-1 : Word).toInt ≠ 0 ∧ (0 : Word).toInt = 0 ∧
    (boot []).Valid (3999 : Word).toInt ∧ ¬ (boot []).Valid (-1 : Word).toInt := by
  exact ⟨rfl, rfl, rfl, by decide, by decide, by decide, by decide⟩

theorem witness_AdjustBaseAddsToBp :
    (boot []).readOperand (imm (-5)) = .ok (-5) ∧ InRange ((boot []).bp.toInt + (-5 : Word).toInt) := ⟨rfl, by decide⟩

theorem witness_OnlyAdjustBaseChangesBp :
    ∃ t, exec (.arb (imm 1)) (boot []) = .next t ∧ t.bp ≠ (boot []).bp := ⟨_, rfl, by decide⟩

theorem witness_OnlyInputChangesTheSlot :
    ∃ t, exec (.inp (pos 1)) { boot [] with slot := some 3 } = .next t ∧
      t.slot ≠ ({ boot [] with slot := some 3 } : State).slot := ⟨_, rfl, by decide⟩

theorem witness_OnlyHaltAndFaultsChangeTheRunState :
    (∃ t, exec .hlt (boot []) = .next t ∧ t.run ≠ (boot []).run) ∧
    (∃ t, exec (.out (pos (-1))) (boot []) = .next t ∧ t.run ≠ (boot []).run) :=
  ⟨⟨_, rfl, by decide⟩, ⟨_, rfl, by decide⟩⟩

theorem witness_ConstructionAndResetState :
    (∃ s, newInstance 2 [104, -9223372036854775808] = .ok s) ∧ (∃ t, (boot [99]).hostReset = .ok t) ∧
    ([104, -1] : List Int)[1]? = some (-1) := ⟨⟨_, rfl⟩, ⟨_, rfl⟩, rfl⟩

theorem witness_ConstructionChecksTheProgramWords :
    (∃ v ∈ ([9223372036854775808] : List Int), ¬ InRange v) ∧
    (∀ v ∈ ([9223372036854775807, -9223372036854775808] : List Int), InRange v) := by decide

theorem witness_InsertInputFillsTheEmptySlot :
    (boot [99]).slot = none ∧ ({ boot [99] with slot := some 5 } : State).slot = some 5 ∧
    ({ boot [99] with run := .halted } : State).run ≠ .active := by decide

theorem witness_HostGetAndSet :
    (bootWith 4 []).Valid 0 ∧ (bootWith 4 []).Valid 3 ∧ (3 : Int) = (((bootWith 4 []).pc + 3 : Nat) : Int) ∧
    ¬ (bootWith 4 []).Valid (-1) ∧ ¬ (bootWith 4 []).Valid 4 := by decide

theorem witness_HostResetRestoresOrRefuses :
    (boot [99]).run = .active ∧ ({ boot [99] with run := .halted } : State).run = .halted ∧
    ({ boot [0] with run := .faulted .invalidOperator } : State).run = .faulted .invalidOperator := ⟨rfl, rfl, rfl⟩

theorem witness_ResetReproducesTheRun :
    newInstance 4000 [99] = .ok (boot [99]) ∧
    ∀ k, ((boot [99]).calls [.insertInput 1, .set 5 7, .step]).run ≠ .faulted k := ⟨rfl, fun _ h => by cases h⟩

theorem witness_RunResultIsUnique : ∃ r, RunsTo (boot [104, 8, 99]) [] r ∧ r.outs = [8] := ⟨_, ⟨2, rfl⟩, rfl⟩

theorem witness_RunLeavesTheStateOfItsReason :
    (boot [99]).run = .active ∧ (∃ r, RunsTo (boot [99]) [] r ∧ r.reason = .halted) ∧
    (∃ r, RunsTo (boot [3, 0]) [] r ∧ r.reason = .inputExhausted) ∧
    (∃ r, RunsTo (boot [0]) [] r ∧ r.reason = .failed .invalidOperator) :=
  ⟨rfl, ⟨_, ⟨1, rfl⟩, rfl⟩, ⟨_, ⟨1, rfl⟩, rfl⟩, ⟨_, ⟨1, rfl⟩, rfl⟩⟩

theorem witness_ConstructionMeetsTheInvariant :
    newInstance 1 [99] = .ok (bootWith 1 [99]) ∧ [99].length ≤ 1 ∧ 1 ≤ Config.maxMemLimit := ⟨rfl, by decide, by decide⟩

/-- An instance that meets the invariant, with a listed cell at the last valid address. -/
theorem witness_Invariant : (bootWith 2 [104, 8]).Inv :=
  ⟨by decide, by decide, by decide, by decide, by decide, by decide⟩

theorem witness_StepKeepsTheInvariant : ∃ t, step (bootWith 2 [104, 8]) = .next t ∧ t.pc = 2 := ⟨_, rfl, rfl⟩

theorem witness_RunFollowsTheStepResults :
    (∃ t, (boot [1101, 1, 2, 5, 99]).stepCall = (.status .running, t)) ∧
    (∃ t, (boot [104, 8, 99]).stepCall = (.status (.output 8), t)) ∧
    (∃ t, (boot [3, 0, 99]).stepCall = (.status .awaitingInput, t)) ∧
    (∃ t, (boot [99]).stepCall = (.status .halted, t)) ∧
    (∃ t, (boot [0]).stepCall = (.failed .invalidOperator, t)) := ⟨⟨_, rfl⟩, ⟨_, rfl⟩, ⟨_, rfl⟩, ⟨_, rfl⟩, ⟨_, rfl⟩⟩

theorem witness_RunEndsWellBadlyOrWaits :
    (boot [104, 8, 99]).run = .active ∧ (∃ r, RunsTo (boot [104, 8, 99]) [] r) ∧
    EndsWell (boot [104, 8, 99]) [] [8] ∧ EndsBadly (boot [0]) [] ∧ ({ boot [99] with run := .halted } : State).run = .halted :=
  ⟨rfl, ⟨_, 2, rfl⟩, ⟨_, ⟨2, rfl⟩, rfl⟩, ⟨_, _, _, ⟨1, rfl⟩, rfl⟩, rfl⟩

/-- R116: the inputs are fed in order and the outputs kept in order (read two values, output the first, then the
second). -/
theorem test_run_feeds_and_emits_in_order :
    (runFor 7 (boot [3, 20, 3, 21, 4, 20, 4, 21, 99]) [7, 5] []).map RunResult.outs = some [7, 5] := by decide

theorem witness_StepReportsTheDecoderFault :
    ({ bootWith 2 [4, 0] with pc := 2 } : State).run = .active ∧
    decode ({ bootWith 2 [4, 0] with pc := 2 } : State).fetchCells = .error .invalidProgram ∧
    (boot [98]).run = .active ∧ decode (boot [98]).fetchCells = .error .invalidOperator ∧
    (boot [303]).run = .active ∧ decode (boot [303]).fetchCells = .error .invalidMode ∧
    (bootWith 3 [1, 0, 0]).run = .active ∧ decode (bootWith 3 [1, 0, 0]).fetchCells = .error .missingOperand :=
  ⟨rfl, rfl, rfl, rfl, rfl, rfl, rfl, rfl⟩

theorem witness_StepCallIsTheStep :
    (boot [104, 8]).run = .active ∧ (∃ t, step (boot [104, 8]) = .next t) ∧
    step { boot [99] with run := .halted } = .fault .alreadyHalted := ⟨rfl, ⟨_, rfl⟩, rfl⟩

end Sys2Proof.Tests
end

section
/-! PROOFS. The invariant at the start of an instance: after construction and after reset. Both states are construction
states, so one lemma about `State.construct` serves both. -/

namespace Sys2Proof.Machine

/-- The construction state of a program that fits an admissible MEM_LIMIT (R6, R119) meets the invariant. -/
theorem State.construct_inv {p : Params} (hfits : p.program.length ≤ p.memLimit)
    (hlimit : p.memLimit ≤ Config.maxMemLimit) : (State.construct p).Inv where
  canonical := Memory.wf_load p.program
  cellsValid e he := by
    have listed : e.1 < 0 + p.program.length := Memory.load_bounded 0 p.program e he
    change e.1 < p.memLimit
    omega
  pcInRange := Nat.zero_le p.memLimit
  programFits := hfits
  limitAdmissible := hlimit
  faultRecorded := RunState.noConfusion

/-- Settles O53: what `new` gives is a construction state, whose program is as long as the list it was built from. -/
theorem constructionMeetsTheInvariant : Obligations.ConstructionMeetsTheInvariant := by
  intro limit prog s hnew hfits hlimit
  obtain ⟨-, rfl⟩ := newInstance_ok hnew
  exact State.construct_inv (by simpa using hfits) hlimit

/-- Settles O52: State.reset is the construction state of the empty program with the greatest MEM_LIMIT. -/
theorem resetMeetsTheInvariant : Obligations.ResetMeetsTheInvariant := by
  unfold Obligations.ResetMeetsTheInvariant
  rw [reset_eq_construct]
  exact State.construct_inv (Nat.zero_le _) le_rfl

end Sys2Proof.Machine
end

section
/-! PROOFS. What one instruction does, for all ten at once: `Effect` lists the states an instruction can lead to, and
`exec_effect` says that there are no others. The statements about every instruction are read off it by cases. -/

namespace Sys2Proof.Machine

/-- The four instructions of the shape `combineInto`. -/
def Combines (i : Instr) (a b c : Operand) : Prop :=
  i = .add a b c ∨ i = .mul a b c ∨ i = .lt a b c ∨ i = .eq a b c

/-- A jump whose condition holds of the value of its first parameter (R89, R90). -/
def JumpTaken (i : Instr) (a b : Operand) (x : Word) : Prop :=
  (i = .jnz a b ∧ x.toInt ≠ 0) ∨ (i = .jz a b ∧ x.toInt = 0)

/-- A jump whose condition fails of the value of its first parameter (R89, R90). -/
def JumpNotTaken (i : Instr) (a b : Operand) (x : Word) : Prop :=
  (i = .jnz a b ∧ x.toInt = 0) ∨ (i = .jz a b ∧ x.toInt ≠ 0)

/-- The states that `i` can lead to from `s`: the fault commit of R100, or the commit of an instruction that completes. -/
inductive Effect (s : State) (i : Instr) : State → Prop where
  | raised (k : Fault) (hk : k ≠ .alreadyHalted) : Effect s i (s.raise k)
  | combined {a b c : Operand} {d : Nat} (r : Word) (hi : Combines i a b c) (hd : s.writeAddress c = .ok d) :
      Effect s i (((s.store d r).advance 4).answer .running)
  | stalled {c : Operand} {d : Nat} (hi : i = .inp c) (hd : s.writeAddress c = .ok d) (hs : s.slot = none) :
      Effect s i (s.answer .awaitingInput)
  | taken {c : Operand} {d : Nat} {v : Word} (hi : i = .inp c) (hd : s.writeAddress c = .ok d) (hs : s.slot = some v) :
      Effect s i ((({ s.store d v with slot := none } : State).advance 2).answer .running)
  | emitted {a : Operand} {v : Word} (hi : i = .out a) (hv : s.readOperand a = .ok v) :
      Effect s i ((s.advance 2).answer (.output v))
  | jumped {a b : Operand} {x y : Word} {d : Nat} (hi : JumpTaken i a b x) (hx : s.readOperand a = .ok x)
      (hy : s.readOperand b = .ok y) (hd : s.cellAddress y.toInt = .ok d) : Effect s i ((s.setPc d).answer .running)
  | fellThrough {a b : Operand} {x y : Word} (hi : JumpNotTaken i a b x) (hx : s.readOperand a = .ok x)
      (hy : s.readOperand b = .ok y) : Effect s i ((s.advance 3).answer .running)
  | rebased {a : Operand} {v r : Word} (hi : i = .arb a) (hv : s.readOperand a = .ok v)
      (hr : r.toInt = s.bp.toInt + v.toInt) :
      Effect s i ((({ s with bp := r } : State).advance 2).answer .running)
  | halted (hi : i = .hlt) : Effect s i (({ s with run := .halted } : State).answer .halted)

/-! ### The faults that the shared operations raise are never AlreadyHalted (R100) -/

theorem readOperand_error_ne {s : State} {o : Operand} {k : Fault} (h : s.readOperand o = .error k) :
    k ≠ .alreadyHalted := by
  rw [State.readOperand_error h]
  decide

theorem writeAddress_error_ne {s : State} {o : Operand} {k : Fault} (h : s.writeAddress o = .error k) :
    k ≠ .alreadyHalted := by
  obtain ⟨-, rfl⟩ | ⟨-, rfl⟩ := State.writeAddress_error h <;> decide

theorem narrow_error_ne {v : Int} {k : Fault} (h : narrow v = .error k) : k ≠ .alreadyHalted := by
  rw [narrow_error h]
  decide

theorem faultOfDecode_ne (e : DecodeFault) : faultOfDecode e ≠ .alreadyHalted := by cases e <;> decide

/-! ### The effect of each shape of instruction -/

theorem effect_of_combineInto {i : Instr} {s t : State} {a b c : Operand} {f : Word → Word → Except Fault Word}
    (hi : Combines i a b c) (hf : ∀ x y k, f x y = .error k → k ≠ .alreadyHalted)
    (h : s.combineInto a b c f = .next t) : Effect s i t := by
  obtain ⟨k, rfl, hk⟩ | ⟨x, y, d, r, -, -, hd, -, rfl⟩ := State.combineInto_cases h
  · obtain ha | ⟨x, -, hb | ⟨y, -, hc | ⟨d, -, hr⟩⟩⟩ := hk
    · exact .raised k (readOperand_error_ne ha)
    · exact .raised k (readOperand_error_ne hb)
    · exact .raised k (writeAddress_error_ne hc)
    · exact .raised k (hf x y k hr)
  · exact .combined r hi hd

theorem effect_of_jumpWhen {i : Instr} {s t : State} {a b : Operand} {cond : Word → Bool}
    (htaken : ∀ x, cond x = true → JumpTaken i a b x) (hnot : ∀ x, cond x = false → JumpNotTaken i a b x)
    (h : s.jumpWhen a b cond = .next t) : Effect s i t := by
  obtain ⟨k, rfl, rfl⟩ | ⟨x, y, d, hx, hy, hc, hd, rfl⟩ | ⟨x, y, hx, hy, hc, rfl⟩ := State.jumpWhen_cases h
  · exact .raised _ (by decide)
  · exact .jumped (htaken x hc) hx hy hd
  · exact .fellThrough (hnot x hc) hx hy

theorem effect_of_execInp {s t : State} {c : Operand} (h : execInp c s = .next t) : Effect s (.inp c) t := by
  obtain ⟨k, rfl, hk⟩ | ⟨d, hd, hs, rfl⟩ | ⟨d, v, hd, hs, rfl⟩ := execInp_cases h
  · exact .raised k (writeAddress_error_ne hk)
  · exact .stalled rfl hd hs
  · exact .taken rfl hd hs

theorem effect_of_execOut {s t : State} {a : Operand} (h : execOut a s = .next t) : Effect s (.out a) t := by
  obtain ⟨k, rfl, hk⟩ | ⟨v, hv, rfl⟩ := execOut_cases h
  · exact .raised k (readOperand_error_ne hk)
  · exact .emitted rfl hv

theorem effect_of_execArb {s t : State} {a : Operand} (h : execArb a s = .next t) : Effect s (.arb a) t := by
  obtain ⟨k, rfl, hk | ⟨v, -, hr⟩⟩ | ⟨v, r, hv, hr, rfl⟩ := execArb_cases h
  · exact .raised k (readOperand_error_ne hk)
  · exact .raised k (narrow_error_ne hr)
  · exact .rebased rfl hv (narrow_ok_iff.1 hr)

theorem effect_of_execHlt {s t : State} (h : execHlt s = .next t) : Effect s .hlt t := by
  rw [execHlt_eq, Host.Outcome.next.injEq] at h
  exact h ▸ .halted rfl

/-- Every next state of an instruction is one of its effects. -/
theorem exec_effect {i : Instr} {s t : State} (h : exec i s = .next t) : Effect s i t := by
  cases i with
  | add a b c => exact effect_of_combineInto (.inl rfl) (fun _ _ _ => narrow_error_ne) h
  | mul a b c => exact effect_of_combineInto (.inr (.inl rfl)) (fun _ _ _ => narrow_error_ne) h
  | inp c => exact effect_of_execInp h
  | out a => exact effect_of_execOut h
  | jnz a b =>
    exact effect_of_jumpWhen (fun x hx => .inl ⟨rfl, of_decide_eq_true hx⟩)
      (fun x hx => .inl ⟨rfl, not_not.1 (of_decide_eq_false hx)⟩) h
  | jz a b =>
    exact effect_of_jumpWhen (fun x hx => .inr ⟨rfl, of_decide_eq_true hx⟩)
      (fun x hx => .inr ⟨rfl, of_decide_eq_false hx⟩) h
  | lt a b c => exact effect_of_combineInto (.inr (.inr (.inl rfl))) (by simp) h
  | eq a b c => exact effect_of_combineInto (.inr (.inr (.inr rfl))) (by simp) h
  | arb a => exact effect_of_execArb h
  | hlt => exact effect_of_execHlt h

end Sys2Proof.Machine
end

section
/-! PROOFS. What every step keeps: the parameters, the canonical memory with valid cells, `pc` in `[0, MEM_LIMIT]`, and
no AlreadyHalted recorded. `pc` stays in range because the Decoder answers an instruction only where all of its cells
are valid. -/

namespace Sys2Proof

/-- A used parameter slot that was read has its cell in the list (R66). -/
theorem le_length_of_slotCell {op : Opcode} {ps : List Word} {k : Nat} {w : Word} (h : slotCell op ps k = .ok w)
    (hk : 1 ≤ k) (hused : k ≤ op.nparams) : k ≤ ps.length := by
  rw [slotCell_used hused hk] at h
  by_contra hlen
  rw [if_neg hlen] at h
  cases h

/-- The Decoder reads every parameter cell the opcode has (R66). -/
theorem nparams_le_of_decodeParams {op : Opcode} {raw : Nat} {ps : List Word} {i : Instr}
    (h : decodeParams op raw ps = .ok i) : op.nparams ≤ ps.length := by
  simp only [decodeParams, Machine.bind_eq_ok] at h
  obtain ⟨m1, -, m2, -, m3, -, w1, h1, w2, h2, w3, h3, -⟩ := h
  have c1 := le_length_of_slotCell h1 (by decide)
  have c2 := le_length_of_slotCell h2 (by decide)
  have c3 := le_length_of_slotCell h3 (by decide)
  have hop : op.nparams ≤ 3 := by cases op <;> decide
  omega

/-- A decoded instruction is not longer than the cells it was read from (R45, R50, R66). -/
theorem len_le_of_decode {cells : List Word} {i : Instr} (h : decode cells = .ok i) : i.opcode.len ≤ cells.length := by
  obtain ⟨w, ps, rfl, -, -, hps⟩ := decode_inv h
  have := nparams_le_of_decodeParams hps
  simp only [Opcode.len, List.length_cons]
  omega

end Sys2Proof

namespace Sys2Proof.Machine

/-- An instruction fetched at a `pc` in range ends at or before MEM_LIMIT (R61, R66). -/
theorem State.pc_add_len_le {s : State} {i : Instr} (h : decode s.fetchCells = .ok i)
    (hpc : s.pc ≤ s.params.memLimit) : s.pc + i.opcode.len ≤ s.params.memLimit := by
  have hlen := len_le_of_decode h
  have hcells := (Memory.cellsFrom_length_le s.mem s.params.memLimit s.pc Config.maxInstrWords).2 hpc
  unfold State.fetchCells at hlen
  omega

theorem exec_params {i : Instr} {s t : State} (h : exec i s = .next t) : t.params = s.params := by
  cases exec_effect h <;> rfl

theorem step_params {s t : State} (h : step s = .next t) : t.params = s.params := by
  obtain ⟨-, ⟨e, -, rfl⟩ | ⟨i, -, hexec⟩⟩ := step_cases h
  · rfl
  · exact exec_params hexec

/-- An instruction leaves Memory as it is or writes one valid cell (R34, R75). -/
theorem exec_mem {i : Instr} {s t : State} (h : exec i s = .next t) :
    t.mem = s.mem ∨ ∃ d v, d < s.params.memLimit ∧ t.mem = s.mem.write d v := by
  cases exec_effect h with
  | combined r hi hd =>
    obtain ⟨-, -, hvalid⟩ := State.writeAddress_ok hd
    exact .inr ⟨_, r, hvalid, rfl⟩
  | taken hi hd hs =>
    obtain ⟨-, -, hvalid⟩ := State.writeAddress_ok hd
    exact .inr ⟨_, _, hvalid, rfl⟩
  | _ => exact .inl rfl

/-- An instruction leaves `pc`, moves it past its own words, or jumps to a valid address (R17). -/
theorem exec_pc {i : Instr} {s t : State} (h : exec i s = .next t) :
    t.pc = s.pc ∨ t.pc = s.pc + i.opcode.len ∨ t.pc < s.params.memLimit := by
  cases exec_effect h with
  | raised k hk => exact .inl rfl
  | combined r hi hd => obtain rfl | rfl | rfl | rfl := hi <;> exact .inr (.inl rfl)
  | stalled hi hd hs => exact .inl rfl
  | taken hi hd hs => subst hi; exact .inr (.inl rfl)
  | emitted hi hv => subst hi; exact .inr (.inl rfl)
  | jumped hi hx hy hd => exact .inr (.inr (State.cellAddress_ok_iff.1 hd).2)
  | fellThrough hi hx hy => obtain ⟨rfl, -⟩ | ⟨rfl, -⟩ := hi <;> exact .inr (.inl rfl)
  | rebased hi hv hr => subst hi; exact .inr (.inl rfl)
  | halted hi => exact .inl rfl

/-- An instruction leaves the run state, halts, or commits a fault other than AlreadyHalted (R21, R100). -/
theorem exec_run {i : Instr} {s t : State} (h : exec i s = .next t) :
    t.run = s.run ∨ (i = .hlt ∧ t.run = .halted) ∨ ∃ k, k ≠ .alreadyHalted ∧ t = s.raise k := by
  cases exec_effect h with
  | raised k hk => exact .inr (.inr ⟨k, hk, rfl⟩)
  | halted hi => exact .inr (.inl ⟨hi, rfl⟩)
  | _ => exact .inl rfl

/-- A fault commit other than AlreadyHalted keeps the invariant (R100). -/
theorem State.Inv.raise {s : State} (hs : s.Inv) {k : Fault} (hk : k ≠ .alreadyHalted) : (s.raise k).Inv :=
  { hs with faultRecorded := fun h => hk (RunState.faulted.inj h) }

/-- A fetched instruction keeps the invariant. -/
theorem State.Inv.exec {s t : State} {i : Instr} (hs : s.Inv) (hdec : decode s.fetchCells = .ok i)
    (h : exec i s = .next t) : t.Inv := by
  have hparams := exec_params h
  have hend := State.pc_add_len_le hdec hs.pcInRange
  refine ⟨?canonical, ?cellsValid, ?pcInRange, hparams ▸ hs.programFits, hparams ▸ hs.limitAdmissible, ?faultRecorded⟩
  case canonical =>
    obtain hmem | ⟨d, v, -, hmem⟩ := exec_mem h
    · exact hmem ▸ hs.canonical
    · exact hmem ▸ Memory.wf_write d v hs.canonical
  case cellsValid =>
    rw [hparams]
    obtain hmem | ⟨d, v, hd, hmem⟩ := exec_mem h
    · exact hmem ▸ hs.cellsValid
    · exact hmem ▸ Memory.write_bounded v hs.cellsValid hd
  case pcInRange =>
    have := hs.pcInRange
    rw [hparams]
    obtain hpc | hpc | hpc := exec_pc h <;> omega
  case faultRecorded =>
    obtain hrun | ⟨-, hrun⟩ | ⟨k, hk, rfl⟩ := exec_run h
    · exact hrun ▸ hs.faultRecorded
    · simp [hrun]
    · exact (hs.raise hk).faultRecorded

/-- Settles O54: a step commits a Decoder fault or runs a fetched instruction, and either keeps the invariant. -/
theorem stepKeepsTheInvariant : Obligations.StepKeepsTheInvariant := by
  intro s t hs h
  obtain ⟨-, ⟨e, -, rfl⟩ | ⟨i, hdec, hexec⟩⟩ := step_cases h
  · exact hs.raise (faultOfDecode_ne e)
  · exact hs.exec hdec hexec

end Sys2Proof.Machine
end

section
/-! PROOFS. How `pc` moves (10_state.md R17), and which instructions change `bp`, the slot and the run state: each read
off the effects of an instruction. -/

namespace Sys2Proof.Machine

/-- Settles O16: the effects one by one; only a fault commit answers a fault. -/
theorem pcUpdatePerInstruction : Obligations.PcUpdatePerInstruction := by
  intro i s t h
  cases exec_effect h with
  | raised k hk => exact ⟨fun _ => rfl, fun hne => absurd rfl (hne k)⟩
  | combined r hi hd => obtain rfl | rfl | rfl | rfl := hi <;> exact ⟨nofun, fun _ => rfl⟩
  | stalled hi hd hs => subst hi; exact ⟨nofun, fun _ => ⟨fun _ => rfl, fun hne => absurd hs hne⟩⟩
  | taken hi hd hs => subst hi; exact ⟨nofun, fun _ => ⟨fun hn => by simp [hs] at hn, fun _ => rfl⟩⟩
  | emitted hi hv => subst hi; exact ⟨nofun, fun _ => rfl⟩
  | jumped hi hx hy hd =>
    have htarget := (State.cellAddress_ok_iff.1 hd).1.symm
    obtain ⟨rfl, hc⟩ | ⟨rfl, hc⟩ := hi
    · exact ⟨nofun, fun _ => ⟨_, _, hx, hy, fun _ => htarget, fun h0 => absurd h0 hc⟩⟩
    · exact ⟨nofun, fun _ => ⟨_, _, hx, hy, fun _ => htarget, fun h0 => absurd hc h0⟩⟩
  | fellThrough hi hx hy =>
    obtain ⟨rfl, hc⟩ | ⟨rfl, hc⟩ := hi
    · exact ⟨nofun, fun _ => ⟨_, _, hx, hy, fun h0 => absurd hc h0, fun _ => rfl⟩⟩
    · exact ⟨nofun, fun _ => ⟨_, _, hx, hy, fun h0 => absurd h0 hc, fun _ => rfl⟩⟩
  | rebased hi hv hr => subst hi; exact ⟨nofun, fun _ => rfl⟩
  | halted hi => subst hi; exact ⟨nofun, fun _ => rfl⟩

/-- Settles O41: every effect but AdjustBase's leaves `bp`. -/
theorem onlyAdjustBaseChangesBp : Obligations.OnlyAdjustBaseChangesBp := by
  intro i s t h hbp
  cases exec_effect h with
  | rebased hi hv hr => exact ⟨_, _, hi, hv, hr⟩
  | _ => exact absurd rfl hbp

/-- Settles O42: every effect but that of an Input with a pending value leaves the slot. -/
theorem onlyInputChangesTheSlot : Obligations.OnlyInputChangesTheSlot := by
  intro i s t h hslot
  cases exec_effect h with
  | taken hi hd hs => exact ⟨_, _, _, hi, hd, hs, rfl, Memory.read_write_same s.mem _ _⟩
  | _ => exact absurd rfl hslot

/-- Settles O43: the run state is left, Halted by Halt, or set by a fault commit. -/
theorem onlyHaltAndFaultsChangeTheRunState : Obligations.OnlyHaltAndFaultsChangeTheRunState := by
  intro i s t h hrun
  obtain hsame | hhalt | ⟨k, -, rfl⟩ := exec_run h
  · exact absurd hsame hrun
  · exact .inl hhalt
  · exact .inr ⟨k, rfl⟩

end Sys2Proof.Machine
end

section
/-! PROOFS. A canonical memory is determined by what it reads as. -/

namespace Sys2Proof.Machine

theorem Memory.wfFrom_cons_iff {lo k : Nat} {x : Word} {m : Memory} :
    Memory.wfFrom lo ((k, x) :: m) = true ↔ lo ≤ k ∧ x ≠ 0 ∧ Memory.wfFrom (k + 1) m = true := by
  simp [Memory.wfFrom, Memory.unlisted, and_assoc]

@[simp] theorem Memory.read_cons_self (k : Nat) (x : Word) (m : Memory) : Memory.read ((k, x) :: m) k = x := if_pos rfl

theorem Memory.read_cons_of_ne {k a : Nat} (x : Word) (m : Memory) (h : k ≠ a) :
    Memory.read ((k, x) :: m) a = m.read a := if_neg h

/-- A cell that reads nonzero is not below the first listed address. -/
theorem Memory.le_of_read_ne_zero {lo a : Nat} {m : Memory} (h : Memory.wfFrom lo m = true) (ha : m.read a ≠ 0) :
    lo ≤ a := by
  by_contra hlt
  exact ha (Memory.read_of_lt h (by omega))

/-- The first listed cell reads nonzero, so a memory that reads 0 everywhere lists nothing. -/
theorem Memory.read_head_ne_zero {lo : Nat} {e : Nat × Word} {m : Memory} (h : Memory.wfFrom lo (e :: m) = true) :
    Memory.read (e :: m) e.1 ≠ 0 := by
  obtain ⟨-, hx, -⟩ := Memory.wfFrom_cons_iff.1 h
  rwa [Memory.read_cons_self]

theorem Memory.eq_of_read_eq {m m' : Memory} {lo lo' : Nat} (h : Memory.wfFrom lo m = true)
    (h' : Memory.wfFrom lo' m' = true) (hread : ∀ a, m.read a = m'.read a) : m = m' := by
  induction m generalizing m' lo lo' with
  | nil =>
    cases m' with
    | nil => rfl
    | cons e m' => exact absurd (hread e.1).symm (Memory.read_head_ne_zero h')
  | cons e m ih =>
    cases m' with
    | nil => exact absurd (hread e.1) (Memory.read_head_ne_zero h)
    | cons e' m' =>
      obtain ⟨k, x⟩ := e
      obtain ⟨k', x'⟩ := e'
      obtain ⟨-, hx, hm⟩ := Memory.wfFrom_cons_iff.1 h
      obtain ⟨-, hx', hm'⟩ := Memory.wfFrom_cons_iff.1 h'
      have hle : k' ≤ k := Memory.le_of_read_ne_zero (m := (k', x') :: m')
        (Memory.wfFrom_cons_iff.2 ⟨le_rfl, hx', hm'⟩) (by rwa [← hread, Memory.read_cons_self])
      have hge : k ≤ k' := Memory.le_of_read_ne_zero (m := (k, x) :: m)
        (Memory.wfFrom_cons_iff.2 ⟨le_rfl, hx, hm⟩) (by rwa [hread, Memory.read_cons_self])
      obtain rfl : k = k' := by omega
      obtain rfl : x = x' := by simpa using hread k
      have htail : ∀ a, Memory.read m a = Memory.read m' a := by
        intro a
        by_cases ha : k = a
        · rw [Memory.read_of_lt hm (by omega), Memory.read_of_lt hm' (by omega)]
        · simpa [Memory.read_cons_of_ne x _ ha] using hread a
      rw [ih hm hm' htail]

/-- Settles O21, by induction on one memory: the first listed address and word of both agree, and so do the rests. -/
theorem canonicalMemoriesThatReadAlikeAreEqual : Obligations.CanonicalMemoriesThatReadAlikeAreEqual :=
  fun _ _ => Memory.eq_of_read_eq

end Sys2Proof.Machine
end

section
/-! PROOFS. The Program and the last result are read by no step: a step of a state with others in their place is the
step of the state, with that Program in place. -/

namespace Sys2Proof.Machine

/-- The state with another Program and another last result. -/
def State.relabel (s : State) (p : List Word) (r : Answer) : State :=
  { s with params := { s.params with program := p }, ret := r }

/-- The outcome with another Program in its next state. -/
def reprogram (p : List Word) : Host.Outcome State Fault Refusal → Host.Outcome State Fault Refusal
  | .next t => .next (t.relabel p t.ret)
  | .fault k => .fault k
  | .refused r => .refused r

variable {s : State} {p : List Word} {r : Answer}

@[simp] theorem State.relabel_run : (s.relabel p r).run = s.run := rfl
@[simp] theorem State.relabel_slot : (s.relabel p r).slot = s.slot := rfl
@[simp] theorem State.relabel_fetchCells : (s.relabel p r).fetchCells = s.fetchCells := rfl

/-- A check whose result does not depend on the Program, followed by a rest that does not depend on it either. -/
theorem conclude_bind_relabel {α : Type} {x : Except Fault α} {f f' : α → Except Fault State}
    (h : ∀ a, (s.relabel p r).conclude (f' a) = reprogram p (s.conclude (f a))) :
    (s.relabel p r).conclude (x >>= f') = reprogram p (s.conclude (x >>= f)) := by
  cases x with
  | error k => rfl
  | ok a => exact h a

theorem combineInto_relabel (a b c : Operand) (f : Word → Word → Except Fault Word) :
    (s.relabel p r).combineInto a b c f = reprogram p (s.combineInto a b c f) :=
  conclude_bind_relabel fun _ => conclude_bind_relabel fun _ => conclude_bind_relabel fun _ =>
    conclude_bind_relabel fun _ => rfl

theorem jumpWhen_relabel (a b : Operand) (cond : Word → Bool) :
    (s.relabel p r).jumpWhen a b cond = reprogram p (s.jumpWhen a b cond) := by
  refine conclude_bind_relabel fun x => conclude_bind_relabel fun y => ?_
  cases cond x with
  | true => exact conclude_bind_relabel fun _ => rfl
  | false => rfl

theorem execInp_relabel (c : Operand) : execInp c (s.relabel p r) = reprogram p (execInp c s) := by
  refine conclude_bind_relabel fun d => ?_
  rw [State.relabel_slot]
  cases s.slot with
  | none => rfl
  | some v => rfl

theorem exec_relabel (i : Instr) : exec i (s.relabel p r) = reprogram p (exec i s) := by
  cases i with
  | add a b c => exact combineInto_relabel a b c _
  | mul a b c => exact combineInto_relabel a b c _
  | inp c => exact execInp_relabel c
  | out a => exact conclude_bind_relabel fun _ => rfl
  | jnz a b => exact jumpWhen_relabel a b _
  | jz a b => exact jumpWhen_relabel a b _
  | lt a b c => exact combineInto_relabel a b c _
  | eq a b c => exact combineInto_relabel a b c _
  | arb a => exact conclude_bind_relabel fun _ => conclude_bind_relabel fun _ => rfl
  | hlt => rfl

theorem step_relabel (s : State) (p : List Word) (r : Answer) : step (s.relabel p r) = reprogram p (step s) := by
  cases hr : s.run with
  | halted => rw [step_halted hr, step_halted (State.relabel_run.trans hr)]; rfl
  | faulted k => rw [step_faulted hr, step_faulted (State.relabel_run.trans hr)]; rfl
  | active =>
    rw [step_active hr, step_active (State.relabel_run.trans hr), State.relabel_fetchCells]
    cases decode s.fetchCells with
    | error e => rfl
    | ok i => exact exec_relabel i

theorem State.stepCall_refused {s : State} {q : Refusal} (h : step s = .refused q) : s.stepCall = (.noStep, s) := by
  simp only [State.stepCall, h]

/-- The step call gives the same result, and a state that differs at most in the Program and the last result. -/
theorem stepCall_relabel (s : State) (p : List Word) (r : Answer) :
    (s.relabel p r).stepCall.1 = s.stepCall.1 ∧ ∃ q, (s.relabel p r).stepCall.2 = s.stepCall.2.relabel p q := by
  cases h : step s with
  | next t =>
    rw [State.stepCall_next h, State.stepCall_next (t := t.relabel p t.ret) (by rw [step_relabel, h]; rfl)]
    exact ⟨rfl, t.ret, rfl⟩
  | fault k =>
    rw [State.stepCall_fault h, State.stepCall_fault (k := k) (by rw [step_relabel, h]; rfl)]
    exact ⟨rfl, r, rfl⟩
  | refused q =>
    rw [State.stepCall_refused h, State.stepCall_refused (q := q) (by rw [step_relabel, h]; rfl)]
    exact ⟨rfl, r, rfl⟩

theorem State.eq_relabel {s s' : State} (hlimit : s.params.memLimit = s'.params.memLimit) (hmem : s.mem = s'.mem)
    (hpc : s.pc = s'.pc) (hbp : s.bp = s'.bp) (hslot : s.slot = s'.slot) (hrun : s.run = s'.run) :
    s' = s.relabel s'.params.program s'.ret := by
  simp [State.relabel, hlimit, hmem, hpc, hbp, hslot, hrun]

/-- Settles O19: states that agree so far are relabellings of each other. -/
theorem stepDependsOnTheSpecStateAlone : Obligations.StepDependsOnTheSpecStateAlone := by
  intro s s' hlimit hmem hpc hbp hslot hrun
  rw [State.eq_relabel hlimit hmem hpc hbp hslot hrun]
  obtain ⟨hanswer, q, hstate⟩ := stepCall_relabel s s'.params.program s'.ret
  rw [hanswer, hstate]
  exact ⟨rfl, rfl, rfl, rfl, rfl, rfl⟩

/-- Settles O20: another Program is a relabelling that keeps the last result. -/
theorem stepNeverReadsTheProgram : Obligations.StepNeverReadsTheProgram := by
  intro s p
  have hstep : step { s with params := { s.params with program := p } } = reprogram p (step s) :=
    step_relabel s p s.ret
  refine ⟨fun t ht => ?_, fun k hk => ?_, fun t ht => step_params ht⟩
  · rw [hstep, ht]
    rfl
  · rw [hstep, hk]
    rfl

end Sys2Proof.Machine
end

section
/-! PROOFS. Which cell an instruction may change (20_memory.md R30, R34), and the fetch after a store (R40). -/

namespace Sys2Proof.Machine

theorem Combines.destination_eq {i : Instr} {a b c : Operand} (h : Combines i a b c) : i.destination = some c := by
  obtain rfl | rfl | rfl | rfl := h <;> rfl

/-- An instruction leaves Memory as it is or writes the cell its destination resolves to. -/
theorem exec_mem_destination {i : Instr} {s t : State} (h : exec i s = .next t) :
    t.mem = s.mem ∨
      ∃ c d v, i.destination = some c ∧ s.writeAddress c = .ok d ∧ t.mem = s.mem.write d v := by
  cases exec_effect h with
  | combined r hi hd => exact .inr ⟨_, _, r, hi.destination_eq, hd, rfl⟩
  | taken hi hd hs => subst hi; exact .inr ⟨_, _, _, rfl, hd, rfl⟩
  | _ => exact .inl rfl

/-- Settles O22: a cell that changed is the one that the destination resolves to, and it resolves to one cell only. -/
theorem onlyTheDestinationCellChanges : Obligations.OnlyTheDestinationCellChanges := by
  intro i s t h
  obtain hmem | ⟨c, d, v, hc, hd, hmem⟩ := exec_mem_destination h
  · rw [hmem]
    exact ⟨fun _ _ _ _ _ _ => rfl, fun _ _ _ _ _ => rfl, fun _ _ => rfl⟩
  · rw [hmem, hc]
    refine ⟨?resolves, ?fails, nofun⟩
    case resolves =>
      rintro _ d' ⟨⟩ hd' a ha
      obtain rfl : d = d' := Except.ok.inj (hd.symm.trans hd')
      exact Memory.read_write_other s.mem v ha
    case fails =>
      rintro _ k ⟨⟩ hk
      rw [hd] at hk
      cases hk

/-- Fetched cell `k` is the cell at `pc + k`, as far as it is valid (R61). -/
theorem State.getElem?_fetchCells (s : State) (k : Nat) :
    s.fetchCells[k]? =
      if k < Config.maxInstrWords ∧ s.pc + k < s.params.memLimit then some (s.mem.read (s.pc + k)) else none :=
  Memory.getElem?_cellsFrom s.mem s.params.memLimit s.pc Config.maxInstrWords k

/-- Fetched cell `k` after a store: a store leaves `pc` and MEM_LIMIT, so the same cells are fetched. -/
theorem State.getElem?_fetchCells_store (s : State) (d : Nat) (v : Word) (k : Nat) :
    (s.store d v).fetchCells[k]? =
      if k < Config.maxInstrWords ∧ s.pc + k < s.params.memLimit then some ((s.mem.write d v).read (s.pc + k))
      else none :=
  State.getElem?_fetchCells (s.store d v) k

/-- Settles O23: fetched cells are reads of Memory, and distinct fetched cells have distinct addresses. -/
theorem storedWordIsFetched : Obligations.StoredWordIsFetched := by
  rintro s _ k v hk rfl hvalid
  refine ⟨?stored, fun j hj => ?others⟩
  case stored => rw [State.getElem?_fetchCells_store, if_pos ⟨hk, hvalid⟩, Memory.read_write_same]
  case others =>
    have hne : s.pc + j ≠ s.pc + k := by omega
    rw [State.getElem?_fetchCells_store, State.getElem?_fetchCells, Memory.read_write_other s.mem v hne]

end Sys2Proof.Machine
end

section
/-! PROOFS. The Decoder as an equivalence: a used slot is read exactly where its mode digit and its cell spell the
parameter (R47, R51, R66), and an instruction is decoded exactly where all its slots are read. Decoding the canonical
encoding follows from it. -/

namespace Sys2Proof

/-- Parameter `k + 1` of `i` has its mode digit in `raw` and its raw word in cell `k` of `ps`, for every `k`
(R46, R51). -/
def Spells (raw : Nat) (ps : List Word) (i : Instr) : Prop :=
  ∀ k o, i.operands[k]? = some o → digit (k + 2) raw = o.mode.digit ∧ ps[k]? = some o.raw

/-- The Decoder reads `p` in slot `k` (1, 2 or 3). -/
def ReadsSlot (op : Opcode) (raw : Nat) (ps : List Word) (k : Nat) (p : Operand) : Prop :=
  slotMode op raw k = .ok p.mode ∧ slotCell op ps k = .ok p.raw

/-- What the Decoder reads in a slot the opcode lacks; `buildInstr` drops it. -/
def unusedOperand : Operand := ⟨.position, 0⟩

/-- What the Decoder reads in slot `k + 1` of `i`. -/
def Instr.slot (i : Instr) (k : Nat) : Operand := i.operands.getD k unusedOperand

variable {op : Opcode} {raw k : Nat} {ps : List Word} {i : Instr}

/-! ### Slots -/

theorem slotMode_used (hused : k < op.nparams) : slotMode op raw (k + 1) = decodeMode (digit (k + 2) raw) :=
  if_pos hused

theorem slotMode_unused (hunused : ¬ k < op.nparams) : slotMode op raw (k + 1) = .ok .position := if_neg hunused

theorem slotCell_ok_iff {w : Word} (hused : k < op.nparams) : slotCell op ps (k + 1) = .ok w ↔ ps[k]? = some w := by
  have hslot : k + 1 ≤ op.nparams := hused
  unfold slotCell
  rw [if_pos hslot, Nat.add_sub_cancel]
  cases ps[k]? <;> simp

theorem slotCell_unused (hunused : ¬ k < op.nparams) : slotCell op ps (k + 1) = .ok 0 := if_neg hunused

theorem readsSlot_used_iff {p : Operand} (hused : k < op.nparams) :
    ReadsSlot op raw ps (k + 1) p ↔ digit (k + 2) raw = p.mode.digit ∧ ps[k]? = some p.raw := by
  rw [ReadsSlot, slotMode_used hused, decodeMode_ok_iff, slotCell_ok_iff hused]

theorem readsSlot_unused (hunused : ¬ k < op.nparams) : ReadsSlot op raw ps (k + 1) unusedOperand :=
  ⟨slotMode_unused hunused, slotCell_unused hunused⟩

/-! ### Parameters of an instruction -/

theorem Instr.operands_length (i : Instr) : i.operands.length = i.opcode.nparams := by cases i <;> rfl

theorem operands_buildInstr (op : Opcode) (p1 p2 p3 : Operand) :
    (buildInstr op p1 p2 p3).operands = [p1, p2, p3].take op.nparams := by cases op <;> rfl

theorem buildInstr_slots (i : Instr) : buildInstr i.opcode (i.slot 0) (i.slot 1) (i.slot 2) = i := by cases i <;> rfl

theorem lt_nparams_of_operands {o : Operand} (h : i.operands[k]? = some o) : k < i.opcode.nparams := by
  obtain ⟨hk, -⟩ := List.getElem?_eq_some_iff.1 h
  rwa [Instr.operands_length] at hk

theorem operands_of_lt_nparams (h : k < i.opcode.nparams) : i.operands[k]? = some (i.slot k) := by
  rw [← Instr.operands_length] at h
  simp [Instr.slot, List.getD, h]

theorem Spells.readsSlot (h : Spells raw ps i) (k : Nat) : ReadsSlot i.opcode raw ps (k + 1) (i.slot k) := by
  by_cases hk : k < i.opcode.nparams
  · exact (readsSlot_used_iff hk).2 (h k _ (operands_of_lt_nparams hk))
  · have hslot : i.slot k = unusedOperand := by
      rw [← Instr.operands_length] at hk
      simp [Instr.slot, List.getD, List.getElem?_eq_none (not_lt.1 hk)]
    exact hslot ▸ readsSlot_unused hk

/-! ### The Decoder -/

theorem decodeParams_eq_ok_iff_slots :
    decodeParams op raw ps = .ok i ↔ ∃ p1 p2 p3, ReadsSlot op raw ps 1 p1 ∧ ReadsSlot op raw ps 2 p2 ∧
      ReadsSlot op raw ps 3 p3 ∧ buildInstr op p1 p2 p3 = i := by
  simp only [decodeParams, Machine.bind_eq_ok, Machine.pure_ok, Except.ok.injEq]
  constructor
  · rintro ⟨m1, hm1, m2, hm2, m3, hm3, w1, hw1, w2, hw2, w3, hw3, hi⟩
    exact ⟨⟨m1, w1⟩, ⟨m2, w2⟩, ⟨m3, w3⟩, ⟨hm1, hw1⟩, ⟨hm2, hw2⟩, ⟨hm3, hw3⟩, hi⟩
  · rintro ⟨p1, p2, p3, ⟨hm1, hw1⟩, ⟨hm2, hw2⟩, ⟨hm3, hw3⟩, hi⟩
    exact ⟨_, hm1, _, hm2, _, hm3, _, hw1, _, hw2, _, hw3, hi⟩

theorem decodeParams_eq_ok_iff : decodeParams i.opcode raw ps = .ok i ↔ Spells raw ps i := by
  rw [decodeParams_eq_ok_iff_slots]
  constructor
  · rintro ⟨p1, p2, p3, h1, h2, h3, hi⟩ k o ho
    refine (readsSlot_used_iff (lt_nparams_of_operands ho)).1 ?_
    rw [← hi, operands_buildInstr, List.getElem?_take] at ho
    obtain ⟨-, ho⟩ := Option.ite_none_right_eq_some.1 ho
    match k, ho with
    | 0, rfl => exact h1
    | 1, rfl => exact h2
    | 2, rfl => exact h3
  · intro h
    exact ⟨_, _, _, h.readsSlot 0, h.readsSlot 1, h.readsSlot 2, buildInstr_slots i⟩

/-- Settles O2: past the sign and the opcode, what is left is that the slots are read. -/
theorem decodeSucceedsExactlyOnItsWords : Obligations.DecodeSucceedsExactlyOnItsWords := by
  intro cells i
  constructor
  · intro h
    obtain ⟨w, ps, hcells, hsign, hop, hps⟩ := decode_inv h
    exact ⟨w, ps, hcells, hsign, hop, decodeParams_eq_ok_iff.1 hps⟩
  · rintro ⟨w, ps, rfl, hsign, hop, hspells⟩
    rw [decode_cons_recognised ps hsign hop]
    exact decodeParams_eq_ok_iff.2 hspells

/-! ### The canonical encoding -/

/-- The mode digits of a canonical instruction word (R46, R57), for all instructions. -/
theorem digit_headWord (i : Instr) : Laws.ModeDigits.Statement i := by
  cases i with
  | add a b c => exact Laws.ModeDigits.add a b c
  | mul a b c => exact Laws.ModeDigits.mul a b c
  | inp c => exact Laws.ModeDigits.inp c
  | out a => exact Laws.ModeDigits.out a
  | jnz a b => exact Laws.ModeDigits.jnz a b
  | jz a b => exact Laws.ModeDigits.jz a b
  | lt a b c => exact Laws.ModeDigits.lt a b c
  | eq a b c => exact Laws.ModeDigits.eq a b c
  | arb a => exact Laws.ModeDigits.arb a
  | hlt => exact Laws.ModeDigits.hlt

theorem spells_headWord (i : Instr) (rest : List Word) : Spells (headWord i) (i.operands.map Operand.raw ++ rest) i := by
  intro k o ho
  have hcell : (i.operands.map Operand.raw)[k]? = some o.raw := by simp [ho]
  obtain ⟨hk, -⟩ := List.getElem?_eq_some_iff.1 hcell
  exact ⟨digit_headWord i k o ho, (List.getElem?_append_left hk).trans hcell⟩

/-- Settles O1: the canonical words spell the instruction. -/
theorem decodeOfEncodeIsTheInstruction : Obligations.DecodeOfEncodeIsTheInstruction := by
  intro i rest
  refine (decodeSucceedsExactlyOnItsWords _ i).2 ⟨_, _, rfl, ?sign, ?opcode, ?params⟩
  case sign =>
    rw [ofNat_headWord_toInt]
    exact Int.natCast_nonneg _
  case opcode => rw [ofNat_headWord_toNat, headWord_opcode]
  case params =>
    rw [ofNat_headWord_toNat]
    exact spells_headWord i rest

end Sys2Proof
end

section
/-! PROOFS. Words that decode alike (R52), words that spell no instruction (R53), and the spec's table (R60). -/

namespace Sys2Proof

/-- A slot's mode depends only on its own digit, and only where the opcode has the slot. -/
theorem slotMode_congr {op : Opcode} {raw raw' k : Nat}
    (h : k < op.nparams → digit (k + 2) raw = digit (k + 2) raw') :
    slotMode op raw (k + 1) = slotMode op raw' (k + 1) := by
  by_cases hk : k < op.nparams
  · rw [slotMode_used hk, slotMode_used hk, h hk]
  · rw [slotMode_unused hk, slotMode_unused hk]

theorem decodeParams_congr {op : Opcode} {raw raw' : Nat} (ps : List Word)
    (h : ∀ k, k < op.nparams → digit (k + 2) raw = digit (k + 2) raw') :
    decodeParams op raw ps = decodeParams op raw' ps := by
  unfold decodeParams
  rw [slotMode_congr (h 0), slotMode_congr (h 1), slotMode_congr (h 2)]

/-- Settles O4: both words are recognised as the same opcode, whose slots have the same modes. -/
theorem unusedModeDigitsAreIgnored : Obligations.UnusedModeDigitsAreIgnored := by
  refine ⟨fun op w w' ps hw hw' hop hop' h => ?_, fun _ => rfl, fun _ _ => rfl, fun _ _ => rfl⟩
  rw [decode_cons_recognised ps hw hop, decode_cons_recognised ps hw' hop', decodeParams_congr ps h]

theorem Opcode.number_mem (op : Opcode) : 1 ≤ op.number ∧ op.number ≤ 9 ∨ op.number = 99 := by cases op <;> decide

theorem opcodeOf_eq_none {n : Nat} (h : n = 0 ∨ 10 ≤ n ∧ n ≤ 98) : opcodeOf n = none := by
  cases ho : opcodeOf n with
  | none => rfl
  | some op =>
    have hnumber := opcodeOf_eq_some ho
    have := op.number_mem
    omega

theorem decode_zero_cons (ps : List Word) : decode (0 :: ps) = .error .invalidOperator :=
  decode_cons_unrecognised ps rfl

end Sys2Proof

namespace Sys2Proof.Machine

/-- A fetch at a valid `pc` begins with the cell there (R61, R63). -/
theorem State.fetchCells_of_valid {s : State} (h : s.pc < s.params.memLimit) :
    ∃ ps, s.fetchCells = s.mem.read s.pc :: ps := ⟨_, if_pos h⟩

/-- Settles O5: no opcode has the number 0 or one from 10 to 98, and the fetched cells begin with the cell at `pc`. -/
theorem illegalWordsRaiseInvalidOperator : Obligations.IllegalWordsRaiseInvalidOperator := by
  refine ⟨fun w ps h => decode_cons_neg ps h, fun w ps _ h => decode_cons_unrecognised ps (opcodeOf_eq_none h),
    decode_zero_cons, fun s hrun hpc hzero => ?_⟩
  obtain ⟨ps, hcells⟩ := State.fetchCells_of_valid hpc
  rw [step_active hrun, hcells, hzero, decode_zero_cons]
  rfl

/-- Settles O6: each row is the Decoder run on its word, and the destination of 11101 is Immediate. -/
theorem specTableOfDecodedWords : Obligations.SpecTableOfDecodedWords := by
  refine ⟨fun p q r => ?rows, fun p q r s => ?resolve⟩
  case rows => exact ⟨rfl, rfl, rfl, rfl, rfl, rfl, rfl, rfl, rfl, rfl, rfl, rfl, rfl⟩
  case resolve => rfl

end Sys2Proof.Machine
end

section
/-! PROOFS. What the step runs: the words at `pc`, as the canonical encoding (R57) or as a table word (log entry 6). -/

namespace Sys2Proof.Machine

/-- Words that stand in valid cells from `pc` on are fetched, as many as an instruction can have (R61). -/
theorem State.isPrefix_fetchCells {s : State} {ws : List Word} (hlen : ws.length ≤ Config.maxInstrWords)
    (hvalid : s.pc + ws.length ≤ s.params.memLimit) (hread : ∀ k w, ws[k]? = some w → s.mem.read (s.pc + k) = w) :
    ws <+: s.fetchCells := by
  rw [List.prefix_iff_getElem?]
  intro k hk
  rw [State.getElem?_fetchCells, if_pos ⟨by omega, by omega⟩, hread k _ (List.getElem?_eq_getElem hk)]

theorem encode_length_le (i : Instr) : (encode i).length ≤ Config.maxInstrWords := by
  rw [encode_length]
  cases i.opcode <;> decide

/-- Settles O9: the fetched cells are the canonical words and what follows them. -/
theorem stepRunsTheEncodedInstructionInMemory : Obligations.StepRunsTheEncodedInstructionInMemory := by
  intro s i hrun hvalid hread
  obtain ⟨rest, hcells⟩ := State.isPrefix_fetchCells (encode_length_le i) hvalid hread
  rw [step_active hrun, ← hcells, decodeOfEncodeIsTheInstruction]

theorem tableCells_length (nbits w : Nat) : (tableCells nbits w).length = Config.maxInstrWords := rfl

theorem decodeTableWord_eq_some_iff {nbits w : Nat} {i : Instr} :
    decodeTableWord nbits w = some i ↔ decode (tableCells nbits w) = .ok i := by
  unfold decodeTableWord
  cases decode (tableCells nbits w) <;> simp

/-- A table word patched into four valid cells is what is fetched. -/
theorem State.fetchCells_withFetchWord {s : State} (nbits w : Nat)
    (hvalid : s.pc + Config.maxInstrWords ≤ s.params.memLimit) :
    (s.withFetchWord nbits w).fetchCells = tableCells nbits w := by
  have hprefix : tableCells nbits w <+: (s.withFetchWord nbits w).fetchCells := by
    refine State.isPrefix_fetchCells le_rfl hvalid fun k v hk => ?_
    obtain ⟨hlen, -⟩ := List.getElem?_eq_some_iff.1 hk
    have hlen' := tableCells_length nbits w
    change (s.mem.writeCells s.params.memLimit s.pc (tableCells nbits w)).read (s.pc + k) = v
    rw [Memory.read_writeCells, if_pos (by omega), Nat.add_sub_cancel_left, List.getD, hk, Option.getD_some]
  refine (hprefix.eq_of_length_le ?_).symm
  exact (Memory.cellsFrom_length_le _ _ _ _).1

/-- Settles O10: the fetched cells are those the table word is read from. -/
theorem stepRunsTheTableWord : Obligations.StepRunsTheTableWord := by
  intro s nbits w i hrun hvalid hi
  have hactive : (s.withFetchWord nbits w).run = .active := hrun
  rw [step_active hactive, State.fetchCells_withFetchWord nbits w hvalid, decodeTableWord_eq_some_iff.1 hi]

end Sys2Proof.Machine
end

section
/-! PROOFS. Well-formedness and the fault WriteToImmediate (R54 (b), R74): the destination is resolved before anything is
committed, and WriteToImmediate is the fault of its mode alone. -/

namespace Sys2Proof

theorem Instr.wellFormed_iff {i : Instr} {c : Operand} (hc : i.destination = some c) :
    i.wellFormed = true ↔ c.mode ≠ .immediate := by
  simp [Instr.wellFormed, hc]

theorem Instr.wellFormed_of_destination_none {i : Instr} (hc : i.destination = none) : i.wellFormed = true := by
  simp [Instr.wellFormed, hc]

end Sys2Proof

namespace Sys2Proof.Machine

/-- `t` is a result of `i` that its well-formedness allows: no WriteToImmediate where it is well-formed, and a fault
commit of the Resolver where it is not. -/
structure RespectsWellFormed (i : Instr) (s t : State) : Prop where
  wellFormed : i.wellFormed = true → t.ret ≠ .failed .writeToImmediate
  illFormed : i.wellFormed = false → ∃ k, (k = .writeToImmediate ∨ k = .invalidProgram) ∧ t = s.raise k

variable {i : Instr} {s t : State} {a b c : Operand} {k : Fault} {d : Nat}

/-! ### Each way an instruction can end -/

theorem RespectsWellFormed.of_destination_none (hc : i.destination = none) (ht : t.ret ≠ .failed .writeToImmediate) :
    RespectsWellFormed i s t where
  wellFormed _ := ht
  illFormed h := by simp [Instr.wellFormed_of_destination_none hc] at h

theorem RespectsWellFormed.of_writeAddress_ok (hc : i.destination = some c) (hd : s.writeAddress c = .ok d)
    (ht : t.ret ≠ .failed .writeToImmediate) : RespectsWellFormed i s t where
  wellFormed _ := ht
  illFormed h := by
    obtain ⟨hmode, -, -⟩ := State.writeAddress_ok hd
    simp [(Instr.wellFormed_iff hc).2 hmode] at h

theorem RespectsWellFormed.of_readOperand_error (h : s.readOperand a = .error k) :
    RespectsWellFormed i s (s.raise k) := by
  obtain rfl := State.readOperand_error h
  exact ⟨fun _ => nofun, fun _ => ⟨_, .inr rfl, rfl⟩⟩

theorem RespectsWellFormed.of_writeAddress_error (hc : i.destination = some c) (h : s.writeAddress c = .error k) :
    RespectsWellFormed i s (s.raise k) := by
  obtain ⟨hmode, rfl⟩ | ⟨-, rfl⟩ := State.writeAddress_error h
  · exact ⟨fun hwf => absurd hmode ((Instr.wellFormed_iff hc).1 hwf), fun _ => ⟨_, .inl rfl, rfl⟩⟩
  · exact ⟨fun _ => nofun, fun _ => ⟨_, .inr rfl, rfl⟩⟩

/-! ### Each shape of instruction -/

theorem RespectsWellFormed.of_combineInto {f : Word → Word → Except Fault Word} (hi : Combines i a b c)
    (hf : ∀ x y k, f x y = .error k → k ≠ .writeToImmediate) (h : s.combineInto a b c f = .next t) :
    RespectsWellFormed i s t := by
  have hc := hi.destination_eq
  obtain ⟨k, rfl, hk⟩ | ⟨x, y, d, r, -, -, hd, -, rfl⟩ := State.combineInto_cases h
  · obtain ha | ⟨x, -, hb | ⟨y, -, hw | ⟨d, hd, hr⟩⟩⟩ := hk
    · exact .of_readOperand_error ha
    · exact .of_readOperand_error hb
    · exact .of_writeAddress_error hc hw
    · exact .of_writeAddress_ok hc hd fun hret => hf x y k hr (Answer.failed.inj hret)
  · exact .of_writeAddress_ok hc hd nofun

theorem RespectsWellFormed.of_jumpWhen {cond : Word → Bool} (hc : i.destination = none)
    (h : s.jumpWhen a b cond = .next t) : RespectsWellFormed i s t := by
  obtain ⟨k, rfl, rfl⟩ | ⟨x, y, d, -, -, -, -, rfl⟩ | ⟨x, y, -, -, -, rfl⟩ := State.jumpWhen_cases h <;>
    exact .of_destination_none hc nofun

theorem RespectsWellFormed.of_execInp (h : execInp c s = .next t) : RespectsWellFormed (.inp c) s t := by
  obtain ⟨k, rfl, hk⟩ | ⟨d, hd, -, rfl⟩ | ⟨d, v, hd, -, rfl⟩ := execInp_cases h
  · exact .of_writeAddress_error rfl hk
  · exact .of_writeAddress_ok rfl hd nofun
  · exact .of_writeAddress_ok rfl hd nofun

theorem RespectsWellFormed.of_execOut (h : execOut a s = .next t) : RespectsWellFormed (.out a) s t := by
  obtain ⟨k, rfl, hk⟩ | ⟨v, -, rfl⟩ := execOut_cases h
  · exact .of_readOperand_error hk
  · exact .of_destination_none rfl nofun

theorem narrow_error_ne_writeToImmediate {v : Int} (h : narrow v = .error k) : k ≠ .writeToImmediate := by
  rw [narrow_error h]
  decide

theorem RespectsWellFormed.of_execArb (h : execArb a s = .next t) : RespectsWellFormed (.arb a) s t := by
  obtain ⟨k, rfl, hk | ⟨v, -, hr⟩⟩ | ⟨v, r, -, -, rfl⟩ := execArb_cases h
  · exact .of_readOperand_error hk
  · exact .of_destination_none rfl fun hret => narrow_error_ne_writeToImmediate hr (Answer.failed.inj hret)
  · exact .of_destination_none rfl nofun

theorem RespectsWellFormed.of_execHlt (h : execHlt s = .next t) : RespectsWellFormed .hlt s t := by
  rw [execHlt_eq, Host.Outcome.next.injEq] at h
  exact h ▸ .of_destination_none rfl nofun

theorem exec_respectsWellFormed (h : exec i s = .next t) : RespectsWellFormed i s t := by
  cases i with
  | add a b c => exact .of_combineInto (.inl rfl) (fun _ _ _ => narrow_error_ne_writeToImmediate) h
  | mul a b c => exact .of_combineInto (.inr (.inl rfl)) (fun _ _ _ => narrow_error_ne_writeToImmediate) h
  | inp c => exact .of_execInp h
  | out a => exact .of_execOut h
  | jnz a b => exact .of_jumpWhen rfl h
  | jz a b => exact .of_jumpWhen rfl h
  | lt a b c => exact .of_combineInto (.inr (.inr (.inl rfl))) (by simp) h
  | eq a b c => exact .of_combineInto (.inr (.inr (.inr rfl))) (by simp) h
  | arb a => exact .of_execArb h
  | hlt => exact .of_execHlt h

/-- Settles O7: each instruction ends as its well-formedness allows. -/
theorem wellFormednessDecidesImmediateWrites : Obligations.WellFormednessDecidesImmediateWrites := by
  intro i s t h
  obtain ⟨hwf, hill⟩ := exec_respectsWellFormed h
  exact ⟨hwf, hill⟩

end Sys2Proof.Machine
end

section
/-! PROOFS. Which fault the Decoder reports (R83): its mode digits are read before its parameter cells, and each of the
two passes over the slots has one fault of its own. -/

namespace Sys2Proof

variable {op : Opcode} {raw k : Nat} {ps : List Word} {e : DecodeFault}

/-! ### A pass over the three slots -/

/-- One reader run over the slots in order, failing with the first slot that fails. -/
def readSlots {α : Type} (f : Nat → Except DecodeFault α) : Except DecodeFault (α × α × α) := do
  let a ← f 1
  let b ← f 2
  let c ← f 3
  return (a, b, c)

/-- A reader with one fault fails exactly where one of the slots does. -/
theorem readSlots_eq_error_iff {α : Type} {f : Nat → Except DecodeFault α} {e₀ : DecodeFault} {Bad : Nat → Prop}
    (hf : ∀ k e, f (k + 1) = .error e ↔ e = e₀ ∧ Bad k) :
    readSlots f = .error e ↔ e = e₀ ∧ ∃ k < 3, Bad k := by
  have hsome : (∃ k < 3, Bad k) ↔ Bad 0 ∨ Bad 1 ∨ Bad 2 := by
    simp only [Nat.exists_lt_succ_right, Nat.not_lt_zero, false_and, exists_false, false_or, or_assoc]
  have hok : ∀ k a, f (k + 1) = .ok a → ¬ Bad k := fun k a ha hk => by
    simpa [ha] using (hf k e₀).2 ⟨rfl, hk⟩
  rw [hsome, readSlots]
  cases h1 : f 1 with
  | error e1 =>
    obtain ⟨rfl, hbad⟩ := (hf 0 e1).1 h1
    simp [hbad, eq_comm]
  | ok a =>
    cases h2 : f 2 with
    | error e2 =>
      obtain ⟨rfl, hbad⟩ := (hf 1 e2).1 h2
      simp [hbad, eq_comm]
    | ok b =>
      cases h3 : f 3 with
      | error e3 =>
        obtain ⟨rfl, hbad⟩ := (hf 2 e3).1 h3
        simp [hbad, eq_comm]
      | ok c => simp [hok 0 a h1, hok 1 b h2, hok 2 c h3]

theorem exists_eq_ok_iff {ε α : Type} {x : Except ε α} : (∃ a, x = .ok a) ↔ ∀ e, x ≠ .error e := by
  cases x <;> simp

/-- The Decoder's two passes: the mode digits, then the parameter cells (R62). -/
theorem decodeParams_eq_readSlots (op : Opcode) (raw : Nat) (ps : List Word) :
    decodeParams op raw ps =
      (readSlots (slotMode op raw) >>= fun m => readSlots (slotCell op ps) >>= fun w =>
        .ok (buildInstr op ⟨m.1, w.1⟩ ⟨m.2.1, w.2.1⟩ ⟨m.2.2, w.2.2⟩)) := by
  simp only [decodeParams, readSlots, bind_assoc, Machine.pure_ok, Machine.bind_ok]

/-! ### The fault of each pass -/

theorem slotMode_eq_error_iff :
    slotMode op raw (k + 1) = .error e ↔ e = .invalidMode ∧ k < op.nparams ∧ 2 < digit (k + 2) raw := by
  by_cases hk : k < op.nparams
  · rw [slotMode_used hk]
    by_cases hd : 2 < digit (k + 2) raw
    · simp [decodeMode_of_large hd, hk, hd, eq_comm]
    · obtain ⟨m, hm⟩ := decodeMode_of_small (not_lt.1 hd)
      simp [hm, hd]
  · simp [slotMode_unused hk, hk]

theorem slotCell_eq_error_iff :
    slotCell op ps (k + 1) = .error e ↔ e = .missingOperand ∧ k < op.nparams ∧ ps.length ≤ k := by
  by_cases hk : k < op.nparams
  · rw [slotCell_used hk (Nat.le_add_left 1 k)]
    by_cases hl : ps.length ≤ k
    · simp [hk, hl, not_lt.2 hl, eq_comm]
    · simp [hl, not_le.1 hl]
  · simp [slotCell_unused hk, hk]

theorem Opcode.nparams_le (op : Opcode) : op.nparams ≤ 3 := by cases op <;> decide

theorem readModes_eq_error_iff :
    readSlots (slotMode op raw) = .error e ↔
      e = .invalidMode ∧ ∃ k, k < op.nparams ∧ 2 < digit (k + 2) raw := by
  rw [readSlots_eq_error_iff fun k e => slotMode_eq_error_iff]
  have hop := op.nparams_le
  exact and_congr_right fun _ => ⟨fun ⟨k, _, hk⟩ => ⟨k, hk⟩, fun ⟨k, hk⟩ => ⟨k, by omega, hk⟩⟩

theorem readCells_eq_error_iff :
    readSlots (slotCell op ps) = .error e ↔ e = .missingOperand ∧ ps.length < op.nparams := by
  rw [readSlots_eq_error_iff fun k e => slotCell_eq_error_iff]
  have hop := op.nparams_le
  exact and_congr_right fun _ => ⟨fun ⟨k, _, _⟩ => by omega, fun h => ⟨ps.length, by omega, h, le_rfl⟩⟩

/-- On a recognised opcode: InvalidMode for a used digit above 2, else MissingOperand for a missing cell (R65, R66). -/
theorem decodeParams_eq_error_iff :
    decodeParams op raw ps = .error e ↔
      (e = .invalidMode ∧ ∃ k, k < op.nparams ∧ 2 < digit (k + 2) raw) ∨
      (e = .missingOperand ∧ (∀ k, k < op.nparams → digit (k + 2) raw ≤ 2) ∧ ps.length < op.nparams) := by
  have hmodes : (∃ m, readSlots (slotMode op raw) = .ok m) ↔ ∀ k, k < op.nparams → digit (k + 2) raw ≤ 2 := by
    simp [exists_eq_ok_iff, readModes_eq_error_iff]
  simp only [decodeParams_eq_readSlots, Machine.bind_eq_error, readModes_eq_error_iff, readCells_eq_error_iff,
    exists_and_right, hmodes, reduceCtorEq, and_false, exists_false, or_false]
  exact or_congr_right and_left_comm

/-! ### The Decoder -/

theorem opcodeOf_eq_none_iff {n : Nat} : opcodeOf n = none ↔ ∀ op : Opcode, op.number ≠ n := by
  constructor
  · rintro h op rfl
    simp at h
  · intro h
    cases ho : opcodeOf n with
    | none => rfl
    | some op => exact absurd (opcodeOf_eq_some ho) (h op)

/-- A nonempty list of cells is rejected by its sign or opcode, or is left to its parameters (R64). -/
theorem decode_cons_cases (w : Word) (ps : List Word) :
    ((w.toInt < 0 ∨ ∀ op : Opcode, op.number ≠ w.toNat % 100) ∧ decode (w :: ps) = .error .invalidOperator) ∨
    (0 ≤ w.toInt ∧ ∃ op : Opcode, op.number = w.toNat % 100 ∧ decode (w :: ps) = decodeParams op w.toNat ps) := by
  by_cases hsign : w.toInt < 0
  · exact .inl ⟨.inl hsign, decode_cons_neg ps hsign⟩
  · cases ho : opcodeOf (w.toNat % 100) with
    | none => exact .inl ⟨.inr (opcodeOf_eq_none_iff.1 ho), decode_cons_unrecognised ps ho⟩
    | some op =>
      have hop := opcodeOf_eq_some ho
      exact .inr ⟨not_lt.1 hsign, op, hop, decode_cons_recognised ps (not_lt.1 hsign) hop.symm⟩

/-- Settles O3: the sign and the opcode come first, and the parameters have two faults, none of them the first two. -/
theorem decodeFaultsInCheckOrder : Obligations.DecodeFaultsInCheckOrder := by
  refine ⟨rfl, fun w ps => ⟨?notInvalidProgram, ?operator, fun op hsign hop => ?params⟩⟩
  case notInvalidProgram =>
    obtain ⟨-, h⟩ | ⟨-, op, -, h⟩ := decode_cons_cases w ps
    · simp [h]
    · simp [h, decodeParams_eq_error_iff]
  case operator =>
    obtain ⟨hbad, h⟩ | ⟨hsign, op, hop, h⟩ := decode_cons_cases w ps
    · exact iff_of_true h hbad
    · refine iff_of_false (by simp [h, decodeParams_eq_error_iff]) ?_
      rintro (hneg | hnone)
      · omega
      · exact hnone op hop
  case params =>
    rw [decode_cons_recognised ps hsign hop.symm, decodeParams_eq_error_iff, decodeParams_eq_error_iff]
    simp

end Sys2Proof
end

section
/-! PROOFS. The Resolver, mode by mode (R70 to R76). Position and Relative differ only in the integer they address. -/

namespace Sys2Proof.Machine

variable {s : State} {o : Operand}

theorem State.readOperand_of_valid (hmode : o.mode ≠ .immediate) (h : s.Valid (s.target o)) :
    s.readOperand o = .ok (s.mem.read (s.target o).toNat) := by
  unfold State.readOperand
  split
  · contradiction
  · rw [State.cellAddress_of_valid h]
    rfl

theorem State.readOperand_of_not_valid (hmode : o.mode ≠ .immediate) (h : ¬ s.Valid (s.target o)) :
    s.readOperand o = .error .invalidProgram := by
  unfold State.readOperand
  split
  · contradiction
  · rw [State.cellAddress_of_not_valid h]
    rfl

theorem State.writeAddress_of_not_immediate (hmode : o.mode ≠ .immediate) :
    s.writeAddress o = s.cellAddress (s.target o) := by
  unfold State.writeAddress
  split
  · contradiction
  · rfl

/-- A Position or Relative parameter with a valid address reads the cell there or gives the address. -/
theorem State.resolve_of_valid (hmode : o.mode ≠ .immediate) (h : s.Valid (s.target o)) :
    s.resolve o .read = .ok (.value (s.mem.read (s.target o).toNat)) ∧
    s.resolve o .write = .ok (.addr (s.target o).toNat) := by
  simp [State.resolve, State.readOperand_of_valid hmode h, State.writeAddress_of_not_immediate hmode,
    State.cellAddress_of_valid h]

theorem State.resolve_of_not_valid (hmode : o.mode ≠ .immediate) (h : ¬ s.Valid (s.target o)) :
    s.resolve o .read = .error .invalidProgram ∧ s.resolve o .write = .error .invalidProgram := by
  simp [State.resolve, State.readOperand_of_not_valid hmode h, State.writeAddress_of_not_immediate hmode,
    State.cellAddress_of_not_valid h]

theorem State.not_valid_of_outside {v : Int} (h : v < 0 ∨ (s.params.memLimit : Int) ≤ v) : ¬ s.Valid v := by
  rintro ⟨h0, hlimit⟩
  omega

/-- An unlisted cell reads 0 (10_state.md R24). -/
theorem Memory.read_eq_zero_of_unlisted {m : Memory} {a : Nat} (h : ∀ v, (a, v) ∉ m) : m.read a = 0 := by
  induction m with
  | nil => rfl
  | cons e m ih =>
    obtain ⟨k, x⟩ := e
    have hne : k ≠ a := by
      rintro rfl
      exact h x List.mem_cons_self
    rw [Memory.read_cons_of_ne x m hne]
    exact ih fun v hv => h v (List.mem_cons_of_mem _ hv)

/-- Settles O24: a Position parameter addresses its raw word. -/
theorem resolvePosition : Obligations.ResolvePosition := by
  refine ⟨fun s raw hvalid => ?valid, fun s raw hout => ?invalid, fun s hlimit => ?examples⟩
  case valid =>
    obtain ⟨hread, hwrite⟩ := State.resolve_of_valid (o := ⟨.position, raw⟩) nofun hvalid
    refine ⟨hread, hwrite, fun hunlisted => ?_⟩
    have hzero : s.mem.read raw.toInt.toNat = 0 := Memory.read_eq_zero_of_unlisted hunlisted
    exact hzero ▸ hread
  case invalid => exact State.resolve_of_not_valid (o := ⟨.position, raw⟩) nofun (State.not_valid_of_outside hout)
  case examples =>
    have hvalid : s.Valid 9 := ⟨by decide, by omega⟩
    obtain ⟨hread, hwrite⟩ := State.resolve_of_valid (o := ⟨.position, 9⟩) nofun hvalid
    exact ⟨fun hcell => hcell ▸ hread, hwrite⟩

/-- Settles O25: an Immediate Read is its raw word by definition. -/
theorem resolveImmediateRead : Obligations.ResolveImmediateRead := fun _ _ => rfl

/-- The sum of two words is at most twice as far out as a word (R76). -/
theorem toInt_add_toInt_bounds (x y : Word) :
    2 * Config.wMin ≤ x.toInt + y.toInt ∧ x.toInt + y.toInt ≤ 2 * Config.wMax := by
  have hx := BitVec.le_toInt x
  have hx' := BitVec.toInt_lt (x := x)
  have hy := BitVec.le_toInt y
  have hy' := BitVec.toInt_lt (x := y)
  unfold Config.wMin Config.wMax
  constructor <;> omega

/-- Settles O27: a Relative parameter addresses the exact sum of `bp` and its raw word. -/
theorem resolveRelative : Obligations.ResolveRelative := by
  refine ⟨fun s raw hvalid => ?valid, fun s raw hout => ?invalid, fun s raw => toInt_add_toInt_bounds s.bp raw,
    fun s hbp hlimit => ?readExample, fun s hbp hlimit => ?writeExample⟩
  case valid => exact State.resolve_of_valid (o := ⟨.relative, raw⟩) nofun hvalid
  case invalid => exact State.resolve_of_not_valid (o := ⟨.relative, raw⟩) nofun (State.not_valid_of_outside hout)
  case readExample =>
    have htarget : s.target ⟨.relative, -1⟩ = 0 := by rw [State.target, hbp]; rfl
    have hvalid : s.Valid (s.target ⟨.relative, -1⟩) := by rw [htarget]; exact ⟨le_rfl, by omega⟩
    obtain ⟨hread, -⟩ := State.resolve_of_valid (o := ⟨.relative, -1⟩) nofun hvalid
    rwa [htarget] at hread
  case writeExample =>
    have htarget : s.target ⟨.relative, -7⟩ = 1993 := by rw [State.target, hbp]; rfl
    have hvalid : s.Valid (s.target ⟨.relative, -7⟩) := by rw [htarget]; exact ⟨by decide, by omega⟩
    obtain ⟨-, hwrite⟩ := State.resolve_of_valid (o := ⟨.relative, -7⟩) nofun hvalid
    rwa [htarget] at hwrite

end Sys2Proof.Machine
end

section
/-! PROOFS. The parameters are resolved in slot order, and the first that fails is the fault committed (R77, R83). Each
instruction resolves its parameters by checks in sequence, so one rule for a Read and one for a Write serve all ten. -/

namespace Sys2Proof

/-- The used parameters of an instruction with their intents, slot 1 first (R48, R49). -/
def Instr.params (i : Instr) : List (Operand × Intent) := i.operands.zip i.opcode.intents

end Sys2Proof

namespace Sys2Proof.Machine

/-- `k` is the fault of the first of these parameters that fails to resolve. -/
inductive FirstFault (s : State) (k : Fault) : List (Operand × Intent) → Prop where
  | here {o : Operand} {it : Intent} {ps : List (Operand × Intent)} (h : s.resolve o it = .error k) :
      FirstFault s k ((o, it) :: ps)
  | later {o : Operand} {it : Intent} {ps : List (Operand × Intent)} {r : Resolved} (h : s.resolve o it = .ok r)
      (hps : FirstFault s k ps) : FirstFault s k ((o, it) :: ps)

variable {s : State} {k : Fault} {o a b c : Operand} {ps : List (Operand × Intent)}

theorem FirstFault.of_getElem? {j : Nat} {it : Intent} (hj : ps[j]? = some (o, it)) (hk : s.resolve o it = .error k)
    (hbefore : ∀ j' o' it', j' < j → ps[j']? = some (o', it') → ∃ r, s.resolve o' it' = .ok r) :
    FirstFault s k ps := by
  induction j generalizing ps with
  | zero =>
    cases ps with
    | nil => cases hj
    | cons p ps =>
      cases hj
      exact .here hk
  | succ j ih =>
    cases ps with
    | nil => cases hj
    | cons p ps =>
      obtain ⟨r, hr⟩ := hbefore 0 p.1 p.2 j.succ_pos rfl
      exact .later hr (ih hj fun j' o' it' hlt hj' => hbefore (j' + 1) o' it' (Nat.succ_lt_succ hlt) hj')

/-! ### One check of an instruction -/

theorem State.resolve_read_eq_error_iff : s.resolve o .read = .error k ↔ s.readOperand o = .error k := by
  simp [State.resolve, bind_eq_error]

theorem State.resolve_write_eq_error_iff : s.resolve o .write = .error k ↔ s.writeAddress o = .error k := by
  simp [State.resolve, bind_eq_error]

/-- An instruction that begins by reading a parameter: that one fails, or the rest does. -/
theorem FirstFault.conclude_read {f : Word → Except Fault State} (h : FirstFault s k ((o, .read) :: ps))
    (hrest : ∀ v, FirstFault s k ps → s.conclude (f v) = .next (s.raise k)) :
    s.conclude (s.readOperand o >>= f) = .next (s.raise k) := by
  cases h with
  | here h => rw [State.resolve_read_eq_error_iff.1 h, bind_error, State.conclude_error]
  | later h hps =>
    obtain ⟨v, hv, -⟩ := bind_eq_ok.1 h
    rw [hv, bind_ok]
    exact hrest v hps

/-- An instruction that begins by resolving a destination: that one fails, or the rest does. -/
theorem FirstFault.conclude_write {f : Nat → Except Fault State} (h : FirstFault s k ((o, .write) :: ps))
    (hrest : ∀ d, FirstFault s k ps → s.conclude (f d) = .next (s.raise k)) :
    s.conclude (s.writeAddress o >>= f) = .next (s.raise k) := by
  cases h with
  | here h => rw [State.resolve_write_eq_error_iff.1 h, bind_error, State.conclude_error]
  | later h hps =>
    obtain ⟨d, hd, -⟩ := bind_eq_ok.1 h
    rw [hd, bind_ok]
    exact hrest d hps

/-! ### All instructions -/

theorem FirstFault.combineInto {f : Word → Word → Except Fault Word}
    (h : FirstFault s k [(a, .read), (b, .read), (c, .write)]) : s.combineInto a b c f = .next (s.raise k) :=
  h.conclude_read fun _ h => h.conclude_read fun _ h => h.conclude_write nofun

theorem FirstFault.jumpWhen {cond : Word → Bool} (h : FirstFault s k [(a, .read), (b, .read)]) :
    s.jumpWhen a b cond = .next (s.raise k) :=
  h.conclude_read fun _ h => h.conclude_read nofun

/-- The first parameter that fails to resolve is the fault that the instruction commits. -/
theorem FirstFault.exec {i : Instr} (h : FirstFault s k i.params) : exec i s = .next (s.raise k) := by
  cases i with
  | add a b c => exact h.combineInto
  | mul a b c => exact h.combineInto
  | inp c => exact h.conclude_write nofun
  | out a => exact h.conclude_read nofun
  | jnz a b => exact h.jumpWhen
  | jz a b => exact h.jumpWhen
  | lt a b c => exact h.combineInto
  | eq a b c => exact h.combineInto
  | arb a => exact h.conclude_read nofun
  | hlt => cases h

/-- Settles O28: parameter `j` is the first of the instruction's parameters that fails. -/
theorem firstFailingParameterIsReported : Obligations.FirstFailingParameterIsReported := by
  intro i s j o it k ho hit hk hbefore
  have hj : i.params[j]? = some (o, it) := List.getElem?_zip_eq_some.2 ⟨ho, hit⟩
  refine (FirstFault.of_getElem? hj hk fun j' o' it' hlt hj' => ?_).exec
  obtain ⟨ho', hit'⟩ := List.getElem?_zip_eq_some.1 hj'
  exact hbefore j' o' it' hlt ho' hit'

/-- An Immediate destination fails after two parameters that resolve (R74). -/
theorem FirstFault.immediateDestination {x y : Word} (raw : Word) (ha : s.readOperand a = .ok x)
    (hb : s.readOperand b = .ok y) :
    FirstFault s .writeToImmediate [(a, .read), (b, .read), (⟨.immediate, raw⟩, .write)] := by
  have hra : s.resolve a .read = .ok (.value x) := by rw [State.resolve, ha]; rfl
  have hrb : s.resolve b .read = .ok (.value y) := by rw [State.resolve, hb]; rfl
  exact .later hra (.later hrb (.here rfl))

/-- Settles O26: the destination is the first parameter that fails. -/
theorem immediateDestinationFaults : Obligations.ImmediateDestinationFaults := by
  intro s raw
  refine ⟨rfl, FirstFault.exec (.here rfl), fun a b x y ha hb i hi => ?_⟩
  have hfault := FirstFault.immediateDestination raw ha hb
  simp only [List.mem_cons, List.not_mem_nil, or_false] at hi
  obtain rfl | rfl | rfl | rfl := hi <;> exact hfault.exec

end Sys2Proof.Machine
end

section
/-! PROOFS. The step and the step call: what they answer on an active instance, and on one that has ended. -/

namespace Sys2Proof.Machine

/-- Every instruction ends by its committed state or by its fault commit (R99, R100). -/
theorem exec_next (i : Instr) (s : State) : ∃ t, exec i s = .next t := by
  cases i with
  | hlt => exact ⟨_, execHlt_eq s⟩
  | _ => exact State.conclude_next s _

/-- Settles O15: a step of an active instance is a Decoder fault's commit or an instruction. -/
theorem activeStepHasANextState : Obligations.ActiveStepHasANextState := by
  refine ⟨fun s hrun => ?_, exec_next⟩
  rw [step_active hrun]
  cases decode s.fetchCells with
  | error e => exact ⟨_, rfl⟩
  | ok i => exact exec_next i s

/-- Settles O17: the effects one by one; a fault commit is excluded. -/
theorem statusPerInstruction : Obligations.StatusPerInstruction := by
  intro i s t h hret
  cases exec_effect h with
  | raised k hk => exact absurd rfl (hret k)
  | combined r hi hd => obtain rfl | rfl | rfl | rfl := hi <;> rfl
  | stalled hi hd hs => subst hi; exact ⟨fun hne => absurd hs hne, fun _ => rfl⟩
  | taken hi hd hs => subst hi; exact ⟨fun _ => rfl, fun hn => by simp [hs] at hn⟩
  | emitted hi hv => subst hi; exact ⟨_, hv, rfl⟩
  | jumped hi hx hy hd => obtain ⟨rfl, -⟩ | ⟨rfl, -⟩ := hi <;> rfl
  | fellThrough hi hx hy => obtain ⟨rfl, -⟩ | ⟨rfl, -⟩ := hi <;> rfl
  | rebased hi hv hr => subst hi; rfl
  | halted hi => subst hi; rfl

theorem step_of_decode_ok {s : State} {i : Instr} (hrun : s.run = .active) (h : decode s.fetchCells = .ok i) :
    step s = exec i s := by rw [step_active hrun, h]

theorem step_of_decode_error {s : State} {e : DecodeFault} (hrun : s.run = .active)
    (h : decode s.fetchCells = .error e) : step s = .next (s.raise (faultOfDecode e)) := by rw [step_active hrun, h]

/-- Settles O8. -/
theorem stepRunsTheDecodedInstruction : Obligations.StepRunsTheDecodedInstruction :=
  fun _ _ => step_of_decode_ok

/-- Settles O58: each Decoder fault is committed as the fault kind of its name. -/
theorem stepReportsTheDecoderFault : Obligations.StepReportsTheDecoderFault :=
  fun _ hrun => ⟨step_of_decode_error hrun, step_of_decode_error hrun, step_of_decode_error hrun,
    step_of_decode_error hrun⟩

theorem State.fetchCells_of_not_valid {s : State} (h : ¬ s.Valid s.pc) : s.fetchCells = [] :=
  if_neg fun hlt => h ⟨Int.natCast_nonneg _, Int.ofNat_lt.2 hlt⟩

/-- An instruction of three words leaves `pc`, moves it 3 on, or sets a valid one (R17). -/
theorem exec_pc_of_len_eq_three {i : Instr} {s t : State} (hlen : i.opcode.len = 3) (h : exec i s = .next t) :
    t.pc = s.pc ∨ t.pc = s.pc + 3 ∨ t.Valid t.pc := by
  have hpc := exec_pc h
  rw [hlen, ← exec_params h] at hpc
  exact hpc.imp_right (Or.imp_right fun hlt => ⟨Int.natCast_nonneg _, Int.ofNat_lt.2 hlt⟩)

/-- Settles O11: at an invalid `pc` nothing is fetched, and the jumps are instructions of three words. -/
theorem invalidFetchFaults : Obligations.InvalidFetchFaults := by
  refine ⟨fun s hrun hinvalid => ?fetch, fun a b s t h => ?jump⟩
  case fetch =>
    have hdecode : decode s.fetchCells = .error .invalidProgram := by
      rw [State.fetchCells_of_not_valid hinvalid]
      rfl
    exact step_of_decode_error hrun hdecode
  case jump =>
    obtain h | h := h
    · exact exec_pc_of_len_eq_three rfl h
    · exact exec_pc_of_len_eq_three rfl h

/-- Where the step fails, every later one fails alike on the same state (R79, R80). -/
theorem State.calls_step_of_fault {s : State} {k : Fault} (h : step s = .fault k) (n : Nat) :
    s.calls (List.replicate n .step) = s ∧ (s.calls (List.replicate n .step)).stepCall = (.failed k, s) := by
  have hcall := State.stepCall_fault h
  have hfixed : s.calls (List.replicate n .step) = s := State.calls_step_of_fixed (by rw [hcall]) n
  exact ⟨hfixed, by rw [hfixed, hcall]⟩

/-- Settles O12. -/
theorem stepAfterHaltFails : Obligations.StepAfterHaltFails :=
  fun _ hrun => ⟨step_halted hrun, State.calls_step_of_fault (step_halted hrun)⟩

/-- Settles O13. -/
theorem stepAfterFaultFailsAgain : Obligations.StepAfterFaultFailsAgain :=
  fun _ _ hrun => ⟨step_faulted hrun, State.calls_step_of_fault (step_faulted hrun)⟩

theorem State.call_step (s : State) : s.call .step = s.stepCall.2 := rfl

/-- Settles O59: the call hands on the step's outcome, and on an active instance that is a next state. -/
theorem stepCallIsTheStep : Obligations.StepCallIsTheStep := by
  have hnext : ∀ s t : State, step s = .next t → s.stepCall = (t.ret, t) ∧ s.call .step = t := fun s t h => by
    rw [State.call_step, State.stepCall_next h]
    exact ⟨rfl, rfl⟩
  obtain ⟨hactive, -⟩ := activeStepHasANextState
  refine ⟨fun s hrun => ?active, hnext, fun s k h => ?fault⟩
  case active =>
    obtain ⟨t, h⟩ := hactive s hrun
    exact ⟨t, h, hnext s t h⟩
  case fault =>
    rw [State.call_step, State.stepCall_fault h]
    exact ⟨rfl, rfl⟩

end Sys2Proof.Machine
end

section
/-! PROOFS. The arithmetic instructions (41_arith.md): what the shape `combineInto` does once its three parameters
resolve, and what the range check makes of an exact result. Add and Mul are its two exact operations (R85, R86). -/

namespace Sys2Proof.Machine

section Resolved

variable {s : State} {a b c : Operand} {x y : Word} {d : Nat}

/-- With its parameters resolved, only the computation of the result can still fail. -/
theorem State.combineInto_of_resolved (ha : s.readOperand a = .ok x) (hb : s.readOperand b = .ok y)
    (hc : s.writeAddress c = .ok d) (f : Word → Word → Except Fault Word) :
    s.combineInto a b c f =
      s.conclude (f x y >>= fun r => .ok (((s.store d r).advance 4).answer .running)) := by
  simp only [State.combineInto, ha, hb, hc, bind_ok, pure_ok]

/-- A result is stored in the destination cell, and every other cell and element keeps its value (R30, R34). -/
theorem State.combineInto_completes {r : Word} {f : Word → Word → Except Fault Word} (ha : s.readOperand a = .ok x)
    (hb : s.readOperand b = .ok y) (hc : s.writeAddress c = .ok d) (hf : f x y = .ok r) :
    ∃ t, s.combineInto a b c f = .next t ∧ t.mem.read d = r ∧ (∀ e, e ≠ d → t.mem.read e = s.mem.read e) ∧
      t = { s with mem := t.mem, pc := s.pc + 4, ret := .status .running } := by
  refine ⟨((s.store d r).advance 4).answer .running, ?_, Memory.read_write_same s.mem d r,
    fun e he => Memory.read_write_other s.mem r he, rfl⟩
  rw [State.combineInto_of_resolved ha hb hc, hf, bind_ok, State.conclude_ok]

/-- A computation that fails is committed as its fault, with nothing stored (R99, R100). -/
theorem State.combineInto_faults {k : Fault} {f : Word → Word → Except Fault Word} (ha : s.readOperand a = .ok x)
    (hb : s.readOperand b = .ok y) (hc : s.writeAddress c = .ok d) (hf : f x y = .error k) :
    s.combineInto a b c f = .next (s.raise k) := by
  rw [State.combineInto_of_resolved ha hb hc, hf, bind_error, State.conclude_error]

/-- An exact operation whose result is in range completes with the word of that value (R85, R86). -/
theorem State.combineInto_narrow_of_inRange (op : Int → Int → Int) (ha : s.readOperand a = .ok x)
    (hb : s.readOperand b = .ok y) (hc : s.writeAddress c = .ok d) (hrange : InRange (op x.toInt y.toInt)) :
    ∃ t, s.combineInto a b c (fun x y => narrow (op x.toInt y.toInt)) = .next t ∧
      (t.mem.read d).toInt = op x.toInt y.toInt ∧ (∀ e, e ≠ d → t.mem.read e = s.mem.read e) ∧
      t = { s with mem := t.mem, pc := s.pc + 4, ret := .status .running } := by
  obtain ⟨r, hnarrow, hr⟩ := narrow_of_inRange hrange
  obtain ⟨t, hnext, hread, hframe⟩ :=
    State.combineInto_completes (f := fun x y => narrow (op x.toInt y.toInt)) ha hb hc hnarrow
  exact ⟨t, hnext, hread ▸ hr, hframe⟩

/-- An exact operation whose result is out of range raises ArithmeticOverflow (R85, R86). -/
theorem State.combineInto_narrow_of_not_inRange (op : Int → Int → Int) (ha : s.readOperand a = .ok x)
    (hb : s.readOperand b = .ok y) (hc : s.writeAddress c = .ok d) (hrange : ¬ InRange (op x.toInt y.toInt)) :
    s.combineInto a b c (fun x y => narrow (op x.toInt y.toInt)) = .next (s.raise .arithmeticOverflow) :=
  State.combineInto_faults ha hb hc (narrow_of_not_inRange hrange)

end Resolved

/-- AdjustBase raises ArithmeticOverflow where the exact sum with the old `bp` is out of range (R93). -/
theorem execArb_of_not_inRange {s : State} {a : Operand} {v : Word} (ha : s.readOperand a = .ok v)
    (hrange : ¬ InRange (s.bp.toInt + v.toInt)) : execArb a s = .next (s.raise .arithmeticOverflow) := by
  simp only [execArb, ha, bind_ok, narrow_of_not_inRange hrange, bind_error, State.conclude_error]

/-- Settles O29: Add is the exact sum in the shape `combineInto`. -/
theorem addStoresTheSum : Obligations.AddStoresTheSum :=
  fun _ _ _ _ _ _ _ => State.combineInto_narrow_of_inRange (· + ·)

/-- Settles O30: Mul is the exact product in the shape `combineInto`. -/
theorem mulStoresTheProduct : Obligations.MulStoresTheProduct :=
  fun _ _ _ _ _ _ _ => State.combineInto_narrow_of_inRange (· * ·)

/-- Settles O31: the range check is the only check left, for each of the three instructions. -/
theorem outOfRangeResultsRaiseOverflow : Obligations.OutOfRangeResultsRaiseOverflow :=
  ⟨fun _ _ _ _ _ _ _ ha hb hc =>
    ⟨State.combineInto_narrow_of_not_inRange (· + ·) ha hb hc, State.combineInto_narrow_of_not_inRange (· * ·) ha hb hc⟩,
    fun _ _ _ => execArb_of_not_inRange⟩

end Sys2Proof.Machine
end

section
/-! PROOFS. Input and Output (42_io.md): what each answers once its parameter resolves. The wait for a value is a fixed
point of the step, which is why it can be repeated (R87). -/

namespace Sys2Proof.Machine

variable {s : State} {a c : Operand} {v : Word} {d : Nat}

theorem execInp_of_slot_none (hd : s.writeAddress c = .ok d) (hslot : s.slot = none) :
    execInp c s = .next (s.answer .awaitingInput) := by
  simp only [execInp, hd, hslot, bind_ok, pure_ok, State.conclude_ok]

theorem execInp_of_slot_some (hd : s.writeAddress c = .ok d) (hslot : s.slot = some v) :
    execInp c s = .next ((({ s.store d v with slot := none } : State).advance 2).answer .running) := by
  simp only [execInp, hd, hslot, bind_ok, pure_ok, State.conclude_ok]

theorem execOut_of_readOperand_ok (hv : s.readOperand a = .ok v) :
    execOut a s = .next ((s.advance 2).answer (.output v)) := by
  simp only [execOut, hv, bind_ok, pure_ok, State.conclude_ok]

theorem step_of_stalled_input (hrun : s.run = .active) (hdecode : decode s.fetchCells = .ok (.inp c))
    (hd : s.writeAddress c = .ok d) (hslot : s.slot = none) : step s = .next (s.answer .awaitingInput) :=
  (step_of_decode_ok hrun hdecode).trans (execInp_of_slot_none hd hslot)

/-- Settles O35: the state that the first step leaves still waits at the same Input, and its step answers that state
itself, so that no further step changes anything. -/
theorem stalledInputIsIdempotent : Obligations.StalledInputIsIdempotent := by
  intro c s d n hrun hdecode hd hslot
  have hfirst : step s = .next (s.answer .awaitingInput) := step_of_stalled_input hrun hdecode hd hslot
  have hagain : step (s.answer .awaitingInput) = .next (s.answer .awaitingInput) :=
    step_of_stalled_input (s := s.answer .awaitingInput) hrun hdecode hd hslot
  cases n with
  | zero => exact hfirst
  | succ n =>
    have hwaits : (s.answer .awaitingInput).calls (List.replicate n .step) = s.answer .awaitingInput :=
      State.calls_step_of_fixed (by rw [State.stepCall_next hagain]) n
    rw [List.replicate_succ, State.calls_cons, State.call_step, State.stepCall_next hfirst, hwaits]
    exact hagain

/-- Settles O34: the effect is one store, so Memory reads as after one write. -/
theorem inputStoresThePendingValue : Obligations.InputStoresThePendingValue :=
  fun _ s v d hd hslot => ⟨_, execInp_of_slot_some hd hslot, Memory.read_write_same s.mem d v,
    fun _ he => Memory.read_write_other s.mem v he, rfl⟩

/-- Settles O36. -/
theorem outputReturnsTheValue : Obligations.OutputReturnsTheValue :=
  fun _ _ _ => execOut_of_readOperand_ok

end Sys2Proof.Machine
end

section
/-! PROOFS. The conditional jumps (43_branch.md): the three outcomes of the shape `jumpWhen` once both parameters
resolve. The target is checked on the taken path only (R89, R90), so the untaken path says nothing of its validity.
JumpIfTrue and JumpIfFalse differ in the condition alone. -/

namespace Sys2Proof.Machine

section Resolved

variable {s : State} {a b : Operand} {x y : Word} {cond : Word → Bool}

theorem State.jumpWhen_taken_of_valid (ha : s.readOperand a = .ok x) (hb : s.readOperand b = .ok y)
    (hcond : cond x = true) (hvalid : s.Valid y.toInt) :
    s.jumpWhen a b cond = .next ((s.setPc y.toInt.toNat).answer .running) := by
  simp only [State.jumpWhen, ha, hb, bind_ok, if_pos hcond, State.cellAddress_of_valid hvalid, pure_ok,
    State.conclude_ok]

theorem State.jumpWhen_taken_of_not_valid (ha : s.readOperand a = .ok x) (hb : s.readOperand b = .ok y)
    (hcond : cond x = true) (hvalid : ¬ s.Valid y.toInt) :
    s.jumpWhen a b cond = .next (s.raise .invalidProgram) := by
  simp only [State.jumpWhen, ha, hb, bind_ok, if_pos hcond, State.cellAddress_of_not_valid hvalid, bind_error,
    State.conclude_error]

theorem State.jumpWhen_not_taken (ha : s.readOperand a = .ok x) (hb : s.readOperand b = .ok y)
    (hcond : cond x = false) : s.jumpWhen a b cond = .next ((s.advance 3).answer .running) := by
  simp only [State.jumpWhen, ha, hb, bind_ok, if_neg (ne_true_of_eq_false hcond), pure_ok, State.conclude_ok]

end Resolved

/-- Settles O37: JumpIfTrue is `jumpWhen` on a nonzero value. -/
theorem jumpIfTrueTakesTheTargetOnNonzero : Obligations.JumpIfTrueTakesTheTargetOnNonzero :=
  fun _ _ _ _ _ ha hb =>
    ⟨fun hnonzero => State.jumpWhen_taken_of_valid ha hb (decide_eq_true hnonzero),
      fun hnonzero => State.jumpWhen_taken_of_not_valid ha hb (decide_eq_true hnonzero),
      fun hzero => State.jumpWhen_not_taken ha hb (decide_eq_false (not_not_intro hzero))⟩

/-- Settles O38: JumpIfFalse is `jumpWhen` on 0. -/
theorem jumpIfFalseTakesTheTargetOnZero : Obligations.JumpIfFalseTakesTheTargetOnZero :=
  fun _ _ _ _ _ ha hb =>
    ⟨fun hzero => State.jumpWhen_taken_of_valid ha hb (decide_eq_true hzero),
      fun hzero => State.jumpWhen_taken_of_not_valid ha hb (decide_eq_true hzero),
      fun hnonzero => State.jumpWhen_not_taken ha hb (decide_eq_false hnonzero)⟩

end Sys2Proof.Machine
end

section
/-! PROOFS. The comparisons (44_compare.md): the shape `combineInto` on the word of a truth value. LessThan and Equal
differ in the relation between the signed integers alone (R91, R92). -/

namespace Sys2Proof.Machine

theorem truthWord_of_holds {p : Prop} [Decidable p] (h : p) : truthWord (decide p) = 1 :=
  if_pos (decide_eq_true h)

theorem truthWord_of_not_holds {p : Prop} [Decidable p] (h : ¬ p) : truthWord (decide p) = 0 :=
  if_neg (ne_true_of_eq_false (decide_eq_false h))

/-- A comparison cannot fail once its parameters resolve: the destination cell reads as the word of its truth. -/
theorem State.combineInto_truthWord_completes {s : State} {a b c : Operand} {x y : Word} {d : Nat}
    (rel : Int → Int → Prop) [DecidableRel rel] (ha : s.readOperand a = .ok x) (hb : s.readOperand b = .ok y)
    (hc : s.writeAddress c = .ok d) :
    ∃ t, s.combineInto a b c (fun x y => .ok (truthWord (decide (rel x.toInt y.toInt)))) = .next t ∧
      (rel x.toInt y.toInt → t.mem.read d = 1) ∧ (¬ rel x.toInt y.toInt → t.mem.read d = 0) ∧
      (∀ e, e ≠ d → t.mem.read e = s.mem.read e) ∧
      t = { s with mem := t.mem, pc := s.pc + 4, ret := .status .running } := by
  obtain ⟨t, hnext, hread, hframe⟩ := State.combineInto_completes
    (f := fun x y => .ok (truthWord (decide (rel x.toInt y.toInt)))) ha hb hc rfl
  exact ⟨t, hnext, fun h => hread.trans (truthWord_of_holds h),
    fun h => hread.trans (truthWord_of_not_holds h), hframe⟩

/-- Settles O32: LessThan compares by the order of the signed integers, where not smaller is at least as large. -/
theorem lessThanStoresTheComparison : Obligations.LessThanStoresTheComparison := by
  intro a b c s x y d ha hb hc
  obtain ⟨t, hnext, hlt, hnot, hframe⟩ := State.combineInto_truthWord_completes (· < ·) ha hb hc
  exact ⟨t, hnext, hlt, fun hle => hnot (Int.not_lt.mpr hle), hframe⟩

/-- Settles O33: Equal compares the signed integers, which are equal exactly where the words are. -/
theorem equalStoresTheComparison : Obligations.EqualStoresTheComparison := by
  intro a b c s x y d ha hb hc
  obtain ⟨t, hnext, heq, hne, hframe⟩ := State.combineInto_truthWord_completes (· = ·) ha hb hc
  exact ⟨t, hnext, fun h => heq (BitVec.toInt_inj.mpr h), fun h => hne (mt BitVec.toInt_inj.mp h), hframe⟩

end Sys2Proof.Machine
end

section
/-! PROOFS. Base adjustment and halt (45_base_halt.md). AdjustBase asks of its sum only that it is a word: its sign is
not looked at, for only an address computed from `bp` is checked (R76, R93). -/

namespace Sys2Proof.Machine

theorem execArb_of_narrow_ok {s : State} {a : Operand} {v r : Word} (ha : s.readOperand a = .ok v)
    (hr : narrow (s.bp.toInt + v.toInt) = .ok r) :
    execArb a s = .next ((({ s with bp := r } : State).advance 2).answer .running) := by
  simp only [execArb, ha, hr, bind_ok, pure_ok, State.conclude_ok]

/-- Settles O39: a sum in range is a word of exactly that value, and AdjustBase commits that word. -/
theorem adjustBaseAddsToBp : Obligations.AdjustBaseAddsToBp := by
  intro a s v ha hrange
  obtain ⟨r, hnarrow, hr⟩ := narrow_of_inRange hrange
  exact ⟨r, hr, execArb_of_narrow_ok ha hnarrow⟩

/-- Settles O40. -/
theorem haltSetsTheRunState : Obligations.HaltSetsTheRunState :=
  execHlt_eq

end Sys2Proof.Machine
end

section
/-! PROOFS. Which fault kinds an instruction raises (60_exceptions.md R96): the kinds of the checks it makes, read off what
each shape of instruction can do. -/

namespace Sys2Proof.Machine

variable {s t : State} {a b c : Operand} {k : Fault}

theorem State.writeAddress_error_kind (h : s.writeAddress c = .error k) :
    k = .invalidProgram ∨ k = .writeToImmediate :=
  (State.writeAddress_error h).symm.imp And.right And.right

/-- The shape `combineInto` raises what resolving raises, or what computing the result raises. -/
theorem State.combineInto_fault_kind {f : Word → Word → Except Fault Word} (h : s.combineInto a b c f = .next t)
    (hret : t.ret = .failed k) : k = .invalidProgram ∨ k = .writeToImmediate ∨ ∃ x y, f x y = .error k := by
  obtain ⟨k', rfl, hk⟩ | ⟨x, y, d, r, -, -, -, -, rfl⟩ := State.combineInto_cases h
  · obtain rfl : k' = k := Answer.failed.inj hret
    obtain ha | ⟨x, -, hb | ⟨y, -, hc | ⟨d, -, hf⟩⟩⟩ := hk
    · exact .inl (State.readOperand_error ha)
    · exact .inl (State.readOperand_error hb)
    · exact (State.writeAddress_error_kind hc).imp_right .inl
    · exact .inr (.inr ⟨x, y, hf⟩)
  · cases hret

/-- Computing in range: the third kind is ArithmeticOverflow (R85, R86). -/
theorem State.combineInto_narrow_fault_kind {g : Word → Word → Int}
    (h : s.combineInto a b c (fun x y => narrow (g x y)) = .next t) (hret : t.ret = .failed k) :
    k = .invalidProgram ∨ k = .writeToImmediate ∨ k = .arithmeticOverflow :=
  (State.combineInto_fault_kind h hret).imp_right (Or.imp_right fun ⟨_, _, hf⟩ => narrow_error hf)

/-- A computation that cannot fail adds no kind to those of the Resolver (R91, R92). -/
theorem State.combineInto_total_fault_kind {g : Word → Word → Word}
    (h : s.combineInto a b c (fun x y => .ok (g x y)) = .next t) (hret : t.ret = .failed k) :
    k = .invalidProgram ∨ k = .writeToImmediate :=
  (State.combineInto_fault_kind h hret).imp_right (Or.resolve_right · fun ⟨_, _, hf⟩ => nomatch hf)

theorem State.jumpWhen_fault_kind {cond : Word → Bool} (h : s.jumpWhen a b cond = .next t)
    (hret : t.ret = .failed k) : k = .invalidProgram := by
  obtain ⟨k', rfl, hk⟩ | ⟨x, y, d, -, -, -, -, rfl⟩ | ⟨x, y, -, -, -, rfl⟩ := State.jumpWhen_cases h
  · exact Answer.failed.inj hret ▸ hk
  · cases hret
  · cases hret

theorem execInp_fault_kind (h : execInp c s = .next t) (hret : t.ret = .failed k) :
    k = .invalidProgram ∨ k = .writeToImmediate := by
  obtain ⟨k', rfl, hk⟩ | ⟨d, -, -, rfl⟩ | ⟨d, v, -, -, rfl⟩ := execInp_cases h
  · exact State.writeAddress_error_kind (Answer.failed.inj hret ▸ hk)
  · cases hret
  · cases hret

theorem execOut_fault_kind (h : execOut a s = .next t) (hret : t.ret = .failed k) : k = .invalidProgram := by
  obtain ⟨k', rfl, hk⟩ | ⟨v, -, rfl⟩ := execOut_cases h
  · exact State.readOperand_error (Answer.failed.inj hret ▸ hk)
  · cases hret

theorem execArb_fault_kind (h : execArb a s = .next t) (hret : t.ret = .failed k) :
    k = .invalidProgram ∨ k = .arithmeticOverflow := by
  obtain ⟨k', rfl, hk⟩ | ⟨v, r, -, -, rfl⟩ := execArb_cases h
  · obtain rfl : k' = k := Answer.failed.inj hret
    exact hk.imp State.readOperand_error fun ⟨_, _, hr⟩ => narrow_error hr
  · cases hret

/-- Settles O18: instruction by instruction, each by its shape; Halt makes no check. -/
theorem faultKindsPerInstruction : Obligations.FaultKindsPerInstruction := by
  intro i s t k h hret
  cases i with
  | add a b c => exact State.combineInto_narrow_fault_kind h hret
  | mul a b c => exact State.combineInto_narrow_fault_kind h hret
  | inp c => exact execInp_fault_kind h hret
  | out a => exact execOut_fault_kind h hret
  | jnz a b => exact State.jumpWhen_fault_kind h hret
  | jz a b => exact State.jumpWhen_fault_kind h hret
  | lt a b c => exact State.combineInto_total_fault_kind h hret
  | eq a b c => exact State.combineInto_total_fault_kind h hret
  | arb a => exact execArb_fault_kind h hret
  | hlt => cases h; cases hret

end Sys2Proof.Machine
end

section
/-! PROOFS. The host calls (60_exceptions.md R110 to R115): one equation per call and case, and `CallEffect`, the states
that a host call can lead to. That a fault is never left and that the invariant is kept are read off it by cases. -/

namespace Sys2Proof.Machine

variable {s : State} {v w : Word} {a : Int}

/-! ### The calls one by one -/

theorem State.insertInput_of_slot_none (hslot : s.slot = none) : s.insertInput v = .ok { s with slot := some v } := by
  simp only [State.insertInput, hslot]

theorem State.insertInput_of_slot_some (hslot : s.slot = some w) : s.insertInput v = .error .inputOverrun := by
  simp only [State.insertInput, hslot]

theorem State.call_insertInput_of_slot_none (hslot : s.slot = none) :
    s.call (.insertInput v) = { s with slot := some v } := by
  rw [State.call, State.insertInput_of_slot_none hslot, State.after]

theorem State.call_insertInput_of_slot_some (hslot : s.slot = some w) : s.call (.insertInput v) = s := by
  rw [State.call, State.insertInput_of_slot_some hslot, State.after]

theorem State.hostGet_of_valid (h : s.Valid a) : s.hostGet a = .ok (s.mem.read a.toNat) := if_pos h

theorem State.hostGet_of_not_valid (h : ¬ s.Valid a) : s.hostGet a = .error .addressOutOfRange := if_neg h

theorem State.hostSet_of_valid (h : s.Valid a) : s.hostSet a v = .ok (s.store a.toNat v) := if_pos h

theorem State.hostSet_of_not_valid (h : ¬ s.Valid a) : s.hostSet a v = .error .addressOutOfRange := if_neg h

theorem State.call_set_of_valid (h : s.Valid a) : s.call (.set a v) = s.store a.toNat v := by
  rw [State.call, State.hostSet_of_valid h, State.after]

theorem State.call_set_of_not_valid (h : ¬ s.Valid a) : s.call (.set a v) = s := by
  rw [State.call, State.hostSet_of_not_valid h, State.after]

theorem State.hostReset_of_not_faulted (hrun : ∀ k, s.run ≠ .faulted k) :
    s.hostReset = .ok (State.construct s.params) := by
  unfold State.hostReset
  split
  · exact absurd ‹_› (hrun _)
  · rfl
  · rfl

theorem State.hostReset_of_faulted {k : Fault} (hrun : s.run = .faulted k) : s.hostReset = .error .resetRefused := by
  simp only [State.hostReset, hrun]

theorem State.call_reset_of_not_faulted (hrun : ∀ k, s.run ≠ .faulted k) :
    s.call .reset = State.construct s.params := by
  rw [State.call, State.hostReset_of_not_faulted hrun, State.after]

theorem State.call_reset_of_faulted {k : Fault} (hrun : s.run = .faulted k) : s.call .reset = s := by
  rw [State.call, State.hostReset_of_faulted hrun, State.after]

theorem step_of_not_active (hrun : s.run ≠ .active) : ∃ k, step s = .fault k := by
  cases h : s.run with
  | active => exact absurd h hrun
  | halted => exact ⟨_, step_halted h⟩
  | faulted k => exact ⟨_, step_faulted h⟩

/-- Settles O46: the run state is not looked at, and on an instance that has ended no step changes anything. -/
theorem insertInputFillsTheEmptySlot : Obligations.InsertInputFillsTheEmptySlot := by
  refine ⟨fun s v => State.insertInput_of_slot_none, fun s v w hslot => ?full, fun s v n hslot hrun => ?ended⟩
  case full => exact ⟨State.insertInput_of_slot_some hslot, State.call_insertInput_of_slot_some hslot⟩
  case ended =>
    obtain ⟨k, hfault⟩ := step_of_not_active (s := { s with slot := some v }) hrun
    obtain ⟨hfixed, -⟩ := State.calls_step_of_fault hfault n
    rw [State.call_insertInput_of_slot_none hslot, hfixed]

/-- Settles O47: a `set` that succeeds is one store, and a stored word is fetched. -/
theorem hostGetAndSet : Obligations.HostGetAndSet := by
  refine ⟨fun s a v hvalid => ⟨State.hostGet_of_valid hvalid, s.store a.toNat v, State.hostSet_of_valid hvalid, rfl,
    Memory.read_write_same s.mem _ v, fun e he => Memory.read_write_other s.mem v he, ?fetched⟩,
    fun s a v hinvalid => ⟨State.hostGet_of_not_valid hinvalid, State.hostSet_of_not_valid hinvalid,
      State.call_set_of_not_valid hinvalid⟩⟩
  case fetched =>
    rintro k hk rfl
    obtain ⟨hstored, -⟩ := storedWordIsFetched s _ k v hk rfl (Int.ofNat_lt.1 hvalid.2)
    exact hstored

/-- Settles O48: the run state alone decides. -/
theorem hostResetRestoresOrRefuses : Obligations.HostResetRestoresOrRefuses := by
  refine ⟨fun s hrun => State.hostReset_of_not_faulted fun k hk => ?_,
    fun s k hrun => ⟨State.hostReset_of_faulted hrun, State.call_reset_of_faulted hrun⟩⟩
  simp [hk] at hrun

/-! ### All calls at once -/

/-- The states that a host call can lead to from `s`. -/
inductive CallEffect (s : State) : State → Prop where
  | unchanged : CallEffect s s
  | stepped {t : State} (h : step s = .next t) : CallEffect s t
  | filled (v : Word) (hslot : s.slot = none) : CallEffect s { s with slot := some v }
  | stored {d : Nat} (v : Word) (hd : d < s.params.memLimit) : CallEffect s (s.store d v)
  | restored (hrun : ∀ k, s.run ≠ .faulted k) : CallEffect s (State.construct s.params)

theorem callEffect_step (s : State) : CallEffect s (s.call .step) := by
  rw [State.call_step]
  cases h : step s with
  | next t => rw [State.stepCall_next h]; exact .stepped h
  | fault k => rw [State.stepCall_fault h]; exact .unchanged
  | refused q => rw [State.stepCall_refused h]; exact .unchanged

theorem callEffect_insertInput (s : State) (v : Word) : CallEffect s (s.call (.insertInput v)) := by
  cases hslot : s.slot with
  | none => rw [State.call_insertInput_of_slot_none hslot]; exact .filled v hslot
  | some w => rw [State.call_insertInput_of_slot_some hslot]; exact .unchanged

theorem callEffect_set (s : State) (a : Int) (v : Word) : CallEffect s (s.call (.set a v)) := by
  by_cases hvalid : s.Valid a
  · rw [State.call_set_of_valid hvalid]
    exact .stored v (by omega)
  · rw [State.call_set_of_not_valid hvalid]
    exact .unchanged

theorem callEffect_reset (s : State) : CallEffect s (s.call .reset) := by
  by_cases hrun : ∃ k, s.run = .faulted k
  · obtain ⟨k, hk⟩ := hrun
    rw [State.call_reset_of_faulted hk]
    exact .unchanged
  · rw [State.call_reset_of_not_faulted (not_exists.1 hrun)]
    exact .restored (not_exists.1 hrun)

/-- Every host call has one of these effects. -/
theorem callEffect_call (s : State) (c : HostCall) : CallEffect s (s.call c) := by
  cases c with
  | step => exact callEffect_step s
  | insertInput v => exact callEffect_insertInput s v
  | set a v => exact callEffect_set s a v
  | reset => exact callEffect_reset s

/-- What every effect of a host call keeps, every sequence of host calls keeps (R110). -/
theorem State.calls_keep {P : State → Prop} (hkeep : ∀ s t, CallEffect s t → P s → P t) (cs : List HostCall)
    (hs : P s) : P (s.calls cs) := by
  induction cs generalizing s with
  | nil => exact hs
  | cons c cs ih => exact ih (hkeep s _ (callEffect_call s c) hs)

/-! ### Faults are precise and sticky (R100) -/

/-- An instruction answers a fault kind only by its fault commit. -/
theorem exec_eq_raise {i : Instr} {t : State} {k : Fault} (h : exec i s = .next t) (hret : t.ret = .failed k) :
    t = s.raise k ∧ k ≠ .alreadyHalted := by
  cases exec_effect h with
  | raised k' hk' =>
    obtain rfl : k' = k := Answer.failed.inj hret
    exact ⟨rfl, hk'⟩
  | _ => cases hret

/-- A step answers a fault kind only by a fault commit, the Decoder's or the instruction's. -/
theorem step_eq_raise {t : State} {k : Fault} (h : step s = .next t) (hret : t.ret = .failed k) :
    t = s.raise k ∧ k ≠ .alreadyHalted := by
  obtain ⟨-, ⟨e, -, rfl⟩ | ⟨i, -, hexec⟩⟩ := step_cases h
  · obtain rfl : faultOfDecode e = k := Answer.failed.inj hret
    exact ⟨rfl, faultOfDecode_ne e⟩
  · exact exec_eq_raise hexec hret

/-- No host call leaves the faulted state: a step fails, `reset` is refused, and the others leave the run state. -/
theorem CallEffect.run_faulted {t : State} {k : Fault} (h : CallEffect s t) (hrun : s.run = .faulted k) :
    t.run = .faulted k := by
  cases h with
  | unchanged => exact hrun
  | stepped h => rw [step_faulted hrun] at h; cases h
  | filled v hslot => exact hrun
  | stored v hd => exact hrun
  | restored hne => exact absurd hrun (hne k)

/-- Settles O14. -/
theorem faultsArePreciseAndSticky : Obligations.FaultsArePreciseAndSticky :=
  ⟨fun _ _ _ => step_eq_raise,
    fun _ k hrun => ⟨step_faulted hrun,
      fun cs => State.calls_keep (P := (·.run = .faulted k)) (fun _ _ => CallEffect.run_faulted) cs hrun⟩,
    fun _ hrun => State.stepCall_fault (step_halted hrun)⟩

/-! ### The invariant under host calls -/

/-- A word in the slot is no part of the invariant. -/
theorem State.Inv.withSlot (hs : s.Inv) (v : Word) : ({ s with slot := some v } : State).Inv := { hs with }

/-- A store at a valid address keeps the invariant. -/
theorem State.Inv.store {d : Nat} (hs : s.Inv) (v : Word) (hd : d < s.params.memLimit) : (s.store d v).Inv :=
  { hs with
    canonical := Memory.wf_write d v hs.canonical
    cellsValid := Memory.write_bounded v hs.cellsValid hd }

theorem CallEffect.inv {t : State} (h : CallEffect s t) (hs : s.Inv) : t.Inv := by
  cases h with
  | unchanged => exact hs
  | stepped h => exact stepKeepsTheInvariant s t hs h
  | filled v hslot => exact hs.withSlot v
  | stored v hd => exact hs.store v hd
  | restored hrun => exact State.construct_inv hs.programFits hs.limitAdmissible

/-- Settles O55. -/
theorem hostCallsKeepTheInvariant : Obligations.HostCallsKeepTheInvariant :=
  fun _ cs => State.calls_keep (fun _ _ => CallEffect.inv) cs

end Sys2Proof.Machine
end

section
/-! PROOFS. The driver `run` (60_exceptions.md R116). What it returns is fixed by the result of its first step, one
equivalence for each; `Run` follows these results to the end, so that a fact about a run is proved by induction on it,
without fuel. -/

namespace Sys2Proof.Machine

variable {s t : State} {inputs rest : List Word} {v : Word} {r : RunResult}

/-! ### The first step of a run -/

/-- A run that returns takes at least one step. -/
theorem runsTo_iff_succ : RunsTo s inputs r ↔ ∃ n, runFor (n + 1) s inputs [] = some r := by
  constructor
  · rintro ⟨_ | n, hn⟩
    · cases hn
    · exact ⟨n, hn⟩
  · rintro ⟨n, hn⟩
    exact ⟨n + 1, hn⟩

/-- A run whose first step hands over to a run from another state. -/
theorem runsTo_iff_of_continues {inputs' : List Word}
    (h : ∀ n, runFor (n + 1) s inputs [] = runFor n t inputs' []) : RunsTo s inputs r ↔ RunsTo t inputs' r :=
  runsTo_iff_succ.trans (exists_congr fun n => by rw [h])

/-- A run whose first step ends it. -/
theorem runsTo_iff_of_ends {e : RunResult} (h : ∀ n, runFor (n + 1) s inputs [] = some e) :
    RunsTo s inputs r ↔ r = e := by
  simp only [runsTo_iff_succ, h, Option.some.injEq, exists_const, eq_comm]

theorem runsTo_iff_of_running (h : s.stepCall = (.status .running, t)) : RunsTo s inputs r ↔ RunsTo t inputs r :=
  runsTo_iff_of_continues fun n => by rw [runFor, h]

theorem runsTo_iff_of_output (h : s.stepCall = (.status (.output v), t)) :
    RunsTo s inputs r ↔ ∃ r', RunsTo t inputs r' ∧ r = r'.after [v] := by
  have hrun : ∀ n, runFor (n + 1) s inputs [] = (runFor n t inputs []).map (RunResult.after [v]) := fun n => by
    rw [runFor, h, ← runFor_outs]
    rfl
  rw [runsTo_iff_succ]
  simp only [hrun, Option.map_eq_some_iff]
  constructor
  · rintro ⟨n, r', hn, rfl⟩
    exact ⟨r', ⟨n, hn⟩, rfl⟩
  · rintro ⟨r', ⟨n, hn⟩, rfl⟩
    exact ⟨n, r', hn, rfl⟩

theorem runsTo_iff_of_fed (h : s.stepCall = (.status .awaitingInput, t)) :
    RunsTo s (v :: rest) r ↔ RunsTo (t.call (.insertInput v)) rest r :=
  runsTo_iff_of_continues fun n => by rw [runFor, h]

theorem runsTo_iff_of_exhausted (h : s.stepCall = (.status .awaitingInput, t)) :
    RunsTo s [] r ↔ r = ⟨.inputExhausted, [], t⟩ :=
  runsTo_iff_of_ends fun n => by rw [runFor, h]

theorem runsTo_iff_of_halted (h : s.stepCall = (.status .halted, t)) : RunsTo s inputs r ↔ r = ⟨.halted, [], t⟩ :=
  runsTo_iff_of_ends fun n => by rw [runFor, h]

theorem runsTo_iff_of_failed {k : Fault} (h : s.stepCall = (.failed k, t)) :
    RunsTo s inputs r ↔ r = ⟨.failed k, [], t⟩ :=
  runsTo_iff_of_ends fun n => by rw [runFor, h]

/-- Settles O56: one equivalence for each result of the first step. -/
theorem runFollowsTheStepResults : Obligations.RunFollowsTheStepResults := by
  intro s t inputs
  refine ⟨fun h r => runsTo_iff_of_running h, fun v h r => runsTo_iff_of_output h, ?fed, ?exhausted,
    fun h r => runsTo_iff_of_halted h, fun k h r => runsTo_iff_of_failed h⟩
  case fed =>
    rintro v rest h rfl r
    exact runsTo_iff_of_fed h
  case exhausted =>
    rintro h rfl r
    exact runsTo_iff_of_exhausted h

/-! ### Induction along a run -/

/-- A run that returned, step by step. -/
inductive Run : State → List Word → RunResult → Prop where
  | running {s t : State} {inputs : List Word} {r : RunResult} (h : s.stepCall = (.status .running, t))
      (hr : Run t inputs r) : Run s inputs r
  | output {s t : State} {inputs : List Word} {v : Word} {r : RunResult} (h : s.stepCall = (.status (.output v), t))
      (hr : Run t inputs r) : Run s inputs (r.after [v])
  | fed {s t : State} {rest : List Word} {v : Word} {r : RunResult} (h : s.stepCall = (.status .awaitingInput, t))
      (hr : Run (t.call (.insertInput v)) rest r) : Run s (v :: rest) r
  | exhausted {s t : State} (h : s.stepCall = (.status .awaitingInput, t)) : Run s [] ⟨.inputExhausted, [], t⟩
  | halted {s t : State} {inputs : List Word} (h : s.stepCall = (.status .halted, t)) : Run s inputs ⟨.halted, [], t⟩
  | failed {s t : State} {inputs : List Word} {k : Fault} (h : s.stepCall = (.failed k, t)) :
      Run s inputs ⟨.failed k, [], t⟩

theorem run_of_runFor {n : Nat} (hn : runFor n s inputs [] = some r) : Run s inputs r := by
  induction n generalizing s inputs r with
  | zero => cases hn
  | succ n ih =>
    unfold runFor at hn
    split at hn
    · exact .running ‹_› (ih hn)
    · rw [List.nil_append, ← List.append_nil [_], runFor_outs, Option.map_eq_some_iff] at hn
      obtain ⟨r', hr', rfl⟩ := hn
      exact .output ‹_› (ih hr')
    · split at hn
      · cases hn
        exact .exhausted ‹_›
      · exact .fed ‹_› (ih hn)
    · cases hn
      exact .halted ‹_›
    · cases hn
      exact .failed ‹_›
    · cases hn

/-- Every run that returns is such a sequence of steps. -/
theorem RunsTo.run (h : RunsTo s inputs r) : Run s inputs r := by
  obtain ⟨n, hn⟩ := h
  exact run_of_runFor hn

/-- Settles O50, by induction along the first run: the other one takes the same steps. -/
theorem runResultIsUnique : Obligations.RunResultIsUnique := by
  intro s inputs r r' h h'
  replace h := h.run
  induction h generalizing r' with
  | running hcall hr ih => exact ih r' ((runsTo_iff_of_running hcall).1 h')
  | output hcall hr ih =>
    obtain ⟨r'', hr'', rfl⟩ := (runsTo_iff_of_output hcall).1 h'
    rw [ih r'' hr'']
  | fed hcall hr ih => exact ih r' ((runsTo_iff_of_fed hcall).1 h')
  | exhausted hcall => exact ((runsTo_iff_of_exhausted hcall).1 h').symm
  | halted hcall => exact ((runsTo_iff_of_halted hcall).1 h').symm
  | failed hcall => exact ((runsTo_iff_of_failed hcall).1 h').symm

/-! ### How a step and a run leave an instance that was active (R128) -/

/-- The state that a step of an active instance leaves where it returned this result. -/
def State.LeftBy (t : State) : Answer → Prop
  | .noStep => False
  | .status .running => t.run = .active
  | .status (.output _) => t.run = .active
  | .status .awaitingInput => t.run = .active ∧ t.slot = none
  | .status .halted => t.run = .halted
  | .failed k => t.run = .faulted k

theorem exec_leftBy {i : Instr} (hrun : s.run = .active) (h : exec i s = .next t) : t.LeftBy t.ret := by
  cases exec_effect h with
  | raised k hk => exact s.raise_run k
  | stalled hi hd hs => exact ⟨hrun, hs⟩
  | halted hi => rfl
  | _ => exact hrun

theorem step_leftBy (h : step s = .next t) : t.LeftBy t.ret := by
  obtain ⟨hrun, ⟨e, -, rfl⟩ | ⟨i, -, hexec⟩⟩ := step_cases h
  · exact s.raise_run _
  · exact exec_leftBy hrun hexec

/-- The result of a step call on an active instance is recorded in the state that the call leaves. -/
theorem stepCall_leftBy {ans : Answer} (hrun : s.run = .active) (h : s.stepCall = (ans, t)) :
    t.ret = ans ∧ t.LeftBy ans := by
  obtain ⟨hactive, -⟩ := activeStepHasANextState
  obtain ⟨u, hstep⟩ := hactive s hrun
  rw [State.stepCall_next hstep, Prod.mk.injEq] at h
  obtain ⟨rfl, rfl⟩ := h
  exact ⟨rfl, step_leftBy hstep⟩

/-- Settles O51, by induction along the run: every step that does not end it leaves the instance active. -/
theorem runLeavesTheStateOfItsReason : Obligations.RunLeavesTheStateOfItsReason := by
  intro s inputs r hrun h
  replace h := h.run
  induction h with
  | running hcall hr ih =>
    obtain ⟨-, hactive⟩ := stepCall_leftBy hrun hcall
    exact ih hactive
  | output hcall hr ih =>
    obtain ⟨-, hactive⟩ := stepCall_leftBy hrun hcall
    exact ih hactive
  | fed hcall hr ih =>
    obtain ⟨-, hactive, hslot⟩ := stepCall_leftBy hrun hcall
    rw [State.call_insertInput_of_slot_none hslot] at ih
    exact ih hactive
  | exhausted hcall =>
    obtain ⟨hret, hactive, hslot⟩ := stepCall_leftBy hrun hcall
    exact ⟨hactive, hslot, hret⟩
  | halted hcall => exact (stepCall_leftBy hrun hcall).2
  | failed hcall => exact (stepCall_leftBy hrun hcall).2

/-! ### The end of a run (R128) -/

/-- The end that a run from an active instance reaches is the one result it returns. -/
theorem endsWell_iff {outs : List Word} (hrun : s.run = .active) (h : RunsTo s inputs r) :
    EndsWell s inputs outs ↔ r.reason = .halted ∧ r.outs = outs := by
  constructor
  · rintro ⟨t, ht, -⟩
    rw [runResultIsUnique s inputs r _ h ht]
    exact ⟨rfl, rfl⟩
  · obtain ⟨reason, outs', t⟩ := r
    rintro ⟨rfl, rfl⟩
    exact ⟨t, h, runLeavesTheStateOfItsReason s inputs _ hrun h⟩

theorem endsBadly_iff (hrun : s.run = .active) (h : RunsTo s inputs r) :
    EndsBadly s inputs ↔ ∃ k, r.reason = .failed k := by
  constructor
  · rintro ⟨k, outs, t, ht, -⟩
    rw [runResultIsUnique s inputs r _ h ht]
    exact ⟨k, rfl⟩
  · obtain ⟨reason, outs, t⟩ := r
    rintro ⟨k, rfl⟩
    exact ⟨k, outs, t, h, runLeavesTheStateOfItsReason s inputs _ hrun h⟩

theorem not_ended_of_inputExhausted (hrun : s.run = .active) (h : RunsTo s inputs r)
    (hreason : r.reason = .inputExhausted) : ¬ r.final.Ended := by
  obtain ⟨reason, outs, t⟩ := r
  obtain rfl : reason = .inputExhausted := hreason
  obtain ⟨hactive, -, -⟩ := runLeavesTheStateOfItsReason s inputs _ hrun h
  exact not_not_intro hactive

/-- A run on an instance that has halted returns AlreadyHalted at once and leaves the instance as it was (R79). -/
theorem runsTo_iff_of_run_halted (hrun : s.run = .halted) :
    RunsTo s inputs r ↔ r = ⟨.failed .alreadyHalted, [], s⟩ :=
  runsTo_iff_of_failed (State.stepCall_fault (step_halted hrun))

theorem not_endsWell_of_run_halted {outs : List Word} (hrun : s.run = .halted) : ¬ EndsWell s inputs outs := by
  rintro ⟨t, ht, -⟩
  cases (runsTo_iff_of_run_halted hrun).1 ht

theorem not_endsBadly_of_run_halted (hrun : s.run = .halted) : ¬ EndsBadly s inputs := by
  rintro ⟨k, outs, t, ht, hfaulted⟩
  cases (runsTo_iff_of_run_halted hrun).1 ht
  cases hrun.symm.trans hfaulted

/-- Settles O57. -/
theorem runEndsWellBadlyOrWaits : Obligations.RunEndsWellBadlyOrWaits :=
  ⟨fun _ _ _ hrun h => ⟨fun _ => endsWell_iff hrun h, endsBadly_iff hrun h, not_ended_of_inputExhausted hrun h⟩,
    fun _ _ _ hrun => ⟨not_endsWell_of_run_halted hrun, not_endsBadly_of_run_halted hrun⟩⟩

end Sys2Proof.Machine
end

section
/-! PROOFS. Construction, reset and re-running (70_reset_and_hazards.md R118 to R122). `new` and a `reset` that succeeds
both give the construction state of the parameters, and no host call changes the parameters. -/

namespace Sys2Proof.Machine

variable {s t : State} {p : Params} {limit : Nat} {prog : List Int}

/-! ### Construction -/

theorem newInstance_of_inRange (h : ∀ v ∈ prog, InRange v) :
    newInstance limit prog = .ok (State.construct ⟨limit, prog.map (BitVec.ofInt 64)⟩) := if_pos h

theorem newInstance_of_not_inRange (h : ¬ ∀ v ∈ prog, InRange v) :
    newInstance limit prog = .error .programWordOutOfRange := if_neg h

/-- Program words in range keep their values. -/
theorem map_toInt_map_ofInt (h : ∀ v ∈ prog, InRange v) : (prog.map (BitVec.ofInt 64)).map BitVec.toInt = prog := by
  rw [List.map_map]
  exact (List.map_congr_left fun v hv => toInt_ofInt_of_inRange (h v hv)).trans (List.map_id prog)

/-- Settles O45: the range check alone decides, and a word in range keeps its value. -/
theorem constructionChecksTheProgramWords : Obligations.ConstructionChecksTheProgramWords := by
  refine fun limit prog => ⟨fun hbad => newInstance_of_not_inRange ?_, fun hall =>
    ⟨_, newInstance_of_inRange hall, rfl, map_toInt_map_ofInt hall⟩⟩
  obtain ⟨v, hv, hout⟩ := hbad
  exact fun hall => hout (hall v hv)

/-! ### The construction state (R119) -/

/-- Memory at construction is the program and zeros. -/
theorem State.read_construct (p : Params) (a : Nat) : (State.construct p).mem.read a = p.program.getD a 0 := by
  rw [State.construct, Memory.read_load, if_pos (Nat.zero_le a), Nat.sub_zero]

theorem State.read_construct_of_getElem? {a : Nat} {w : Word} (h : p.program[a]? = some w) :
    (State.construct p).mem.read a = w := by
  rw [State.read_construct, List.getD_eq_getElem?_getD, h, Option.getD_some]

theorem State.read_construct_of_length_le {a : Nat} (h : p.program.length ≤ a) :
    (State.construct p).mem.read a = 0 := by
  rw [State.read_construct, List.getD_eq_default _ _ h]

/-- A reset that succeeds gives the construction state (R115). -/
theorem State.hostReset_ok (h : s.hostReset = .ok t) : t = State.construct s.params := by
  by_cases hrun : ∃ k, s.run = .faulted k
  · obtain ⟨k, hk⟩ := hrun
    rw [State.hostReset_of_faulted hk] at h
    cases h
  · rw [State.hostReset_of_not_faulted (not_exists.1 hrun)] at h
    exact (Except.ok.inj h).symm

/-- Settles O44: both give a construction state, whose elements other than Memory are constants. -/
theorem constructionAndResetState : Obligations.ConstructionAndResetState := by
  refine ⟨fun limit prog s hnew => ?constructed, fun s t hreset => ?restored⟩
  case constructed =>
    obtain ⟨hrange, rfl⟩ := newInstance_ok hnew
    refine ⟨fun a v hv => ?listed, fun a ha => State.read_construct_of_length_le (by simpa using ha),
      rfl, rfl, rfl, rfl⟩
    have hword : (prog.map (BitVec.ofInt 64))[a]? = some (BitVec.ofInt 64 v) := by
      rw [List.getElem?_map, hv, Option.map_some]
    rw [State.read_construct_of_getElem? hword]
    exact toInt_ofInt_of_inRange (hrange v (List.mem_of_getElem? hv))
  case restored =>
    obtain rfl := State.hostReset_ok hreset
    exact ⟨fun a v => State.read_construct_of_getElem?, fun a => State.read_construct_of_length_le,
      rfl, rfl, rfl, rfl⟩

/-! ### Re-running (R122) -/

/-- No host call changes MEM_LIMIT or the Program (R25). -/
theorem CallEffect.params (h : CallEffect s t) : t.params = s.params := by
  cases h with
  | stepped h => exact step_params h
  | _ => rfl

theorem State.calls_params (s : State) (cs : List HostCall) : (s.calls cs).params = s.params :=
  State.calls_keep (P := (·.params = s.params)) (fun _ _ h hs => h.params.trans hs) cs rfl

theorem State.calls_construct_params (p : Params) (cs : List HostCall) : ((State.construct p).calls cs).params = p :=
  State.calls_params (State.construct p) cs

/-- Settles O49: the calls keep the parameters, and the construction state is a function of them. -/
theorem resetReproducesTheRun : Obligations.ResetReproducesTheRun := by
  intro limit prog s cs hnew hrun
  obtain ⟨-, rfl⟩ := newInstance_ok hnew
  refine ⟨?succeeds, fun cs' => ?sameRun⟩
  case succeeds => rw [State.hostReset_of_not_faulted hrun, State.calls_construct_params]
  case sameRun => rw [State.call_reset_of_not_faulted hrun, State.calls_construct_params]

end Sys2Proof.Machine
end
